-- ==== Sys2Proof/Word.lean ====
section
/-! DEFINITION. The widths the spec names (00_scope.md R8, R9) and the pixel (10_state.md R15, 00_scope.md R13). -/
namespace Sys2Proof

/-- One byte of a chunk stream, of a channel or of the command port. -/
abbrev Byte := BitVec 8

/-- The 32-bit word of the pixel ports (R15, R37). -/
abbrev PixelWord := BitVec 32

/-- The 64-bit width of COUNT, POS and LEN (R8, R20, R21, R22). -/
abbrev Count := BitVec 64

/-- A 6-bit index of a colour-cache slot (R8, R29). -/
abbrev Slot := BitVec 6

/-- A pixel: four unsigned 8-bit channels; equality is exact and channel-wise (R11, R13).
The 32-bit layout of the ports is `Pixel.toWord` and `Pixel.ofWord` (R15). -/
structure Pixel where
  r : Byte
  g : Byte
  b : Byte
  a : Byte
  deriving DecidableEq, Repr

/-- `pix(r, g, b, a)` of R11, from channel values written as numbers. -/
abbrev pix (r g b a : Nat) : Pixel :=
  ⟨BitVec.ofNat 8 r, BitVec.ofNat 8 g, BitVec.ofNat 8 b, BitVec.ofNat 8 a⟩

end Sys2Proof
end

