-- ==== Sys2Proof/Config.lean ====
section
/-! DEFINITION. The implementation parameters of 00_scope.md R8, and the one open value of the spec, MAGIC (D20, U1). -/
namespace Sys2Proof

/-- CACHE_SLOTS of R8. -/
abbrev Config.cacheSlots : Nat := 64

/-- MAX_RUN of R8: the longest run one RUN chunk encodes. -/
abbrev Config.maxRun : Nat := 62

/-- MAGIC of R8 and R118: the 4 header bytes, first byte most significant (R40).
A FREE VALUE: no source gives it (U1, treatment "parameter"), so it has no body. Log entry 1. -/
opaque Config.magic : BitVec 32

end Sys2Proof
end

