-- ==== Sys2Proof/Port.lean ====
section
/-! DEFINITION. What passes between host and engine: a command with its operand ports (30_encoding.md R70), one moment of the
engine's inputs (R70, 70_reset_and_hazards.md R141), and a response (R73). -/
namespace Sys2Proof

/-- A command on the command port: the command byte CMD and the operand ports (R70). A command reads the ports its row of
R71 names and no other. LEN is the length of the byte sequence on the IN port (R22), so it is no field of its own. -/
structure Command where
  /-- The command byte CMD. -/
  cmd : Byte
  /-- The 32-bit PIXEL port (layout R15). -/
  pixel : PixelWord
  /-- The 64-bit N port, the pixel count. -/
  n : Count
  /-- The IN port, the decoder's input byte sequence. -/
  input : List Byte
  deriving DecidableEq, Repr

/-- What the host does to the engine in one step: the reset input, and a command if one is issued (R123, R141, R142). -/
structure PortInput where
  reset : Bool
  command : Option Command
  deriving DecidableEq, Repr

/-- The response `(STATUS, BYTES, PIXEL)` of R73, the pixel in the port layout of R15 (R37). -/
structure Response where
  status : Byte
  bytes : List Byte
  pixel : Option PixelWord
  deriving DecidableEq, Repr

end Sys2Proof
end

