-- ==== Sys2Proof/Chunk.lean ====
section
/-! DEFINITION. The six chunk kinds (30_encoding.md R54), with their operands in the spelling of R74: signed deltas, the run
length itself, a slot index, raw channels. The biased fields of R55 to R60 are made and undone in Decode.lean. -/
namespace Sys2Proof

/-- One chunk of the stream. -/
inductive Chunk where
  /-- `INDEX i` (R55). -/
  | index (i : Slot)
  /-- `DIFF dr, dg, db` (R56): each delta in [-2, 1]. -/
  | diff (dr dg db : Int)
  /-- `LUMA dg, du, dv` (R57): dg in [-32, 31], du = dr - dg and dv = db - dg in [-8, 7]. -/
  | luma (dg du dv : Int)
  /-- `RUN L` (R58): the run length L in 1..62; the byte holds L - 1. -/
  | run (len : Nat)
  /-- `RGB r, g, b` (R59). -/
  | rgb (r g b : Byte)
  /-- `RGBA r, g, b, a` (R60). -/
  | rgba (r g b a : Byte)
  deriving DecidableEq, Repr

end Sys2Proof
end

