-- ==== Sys2Proof/Syntax.lean ====
section
/-! DEFINITION. The instructions: one constructor per row of spec/opcode_table.json, the six chunk kinds (30_encoding.md R54)
and the four commands with the operands of their ports (R70, R71). -/
namespace Sys2Proof

/-- One row of the opcode table each, with its operands. -/
inductive Instr where
  /-- INDEX: decode rule R105, format R55. -/
  | index (i : Slot)
  /-- DIFF: decode rule R106, format R56. -/
  | diff (dr dg db : Int)
  /-- LUMA: decode rule R107, format R57. -/
  | luma (dg du dv : Int)
  /-- RUN: decode rule R108, format R58. -/
  | run (len : Nat)
  /-- RGB: decode rule R109, format R59. -/
  | rgb (r g b : Byte)
  /-- RGBA: decode rule R110, format R60. -/
  | rgba (r g b a : Byte)
  /-- ENC_START: rule R86; `c` is CMD bit 4 (true: channel count 4), `n` the N port. -/
  | encStart (c : Bool) (n : Count)
  /-- ENC_PIXEL: rule R88; `p` is the PIXEL port. -/
  | encPixel (p : Pixel)
  /-- DEC_START: rule R103; `n` is the N port, `bytes` the IN port. -/
  | decStart (n : Count) (bytes : List Byte)
  /-- DEC_STEP: rule R104. -/
  | decStep
  deriving DecidableEq, Repr

/-- A chunk as an instruction. -/
def Chunk.toInstr : Chunk → Instr
  | .index i => .index i
  | .diff dr dg db => .diff dr dg db
  | .luma dg du dv => .luma dg du dv
  | .run len => .run len
  | .rgb r g b => .rgb r g b
  | .rgba r g b a => .rgba r g b a

end Sys2Proof
end

