-- ==== Sys2Proof/WellFormed.lean ====
section
/-! DEFINITION. Which operands an instruction can carry: the ranges of 30_encoding.md R55 to R60 and R65, and the 64-bit LEN of
10_state.md R22. -/
namespace Sys2Proof

/-- The operand ranges of a chunk (R55 to R60, R74). -/
def Chunk.wf : Chunk → Bool
  | .index _ => true
  | .diff dr dg db =>
    decide (-2 ≤ dr ∧ dr ≤ 1) && decide (-2 ≤ dg ∧ dg ≤ 1) && decide (-2 ≤ db ∧ db ≤ 1)
  | .luma dg du dv =>
    decide (-32 ≤ dg ∧ dg ≤ 31) && decide (-8 ≤ du ∧ du ≤ 7) && decide (-8 ≤ dv ∧ dv ≤ 7)
  | .run len => decide (1 ≤ len ∧ len ≤ 62)
  | .rgb _ _ _ => true
  | .rgba _ _ _ _ => true

/-- The operand ranges of an instruction; DEC_START's input must have a length LEN can hold (R22). -/
def Instr.wf : Instr → Bool
  | .index i => Chunk.wf (.index i)
  | .diff dr dg db => Chunk.wf (.diff dr dg db)
  | .luma dg du dv => Chunk.wf (.luma dg du dv)
  | .run len => Chunk.wf (.run len)
  | .rgb r g b => Chunk.wf (.rgb r g b)
  | .rgba r g b a => Chunk.wf (.rgba r g b a)
  | .encStart _ _ => true
  | .encPixel _ => true
  | .decStart _ bytes => decide (bytes.length < 2 ^ 64)
  | .decStep => true

end Sys2Proof
end

