-- ==== Sys2Proof/Decode.lean ====
section
/-! DEFINITION. The two decoders, of the chunk stream (30_encoding.md R54 to R64) and of the command port (R70 to R72), each
total and rejecting by name, then the encoder from the same formats, then the opcode table's rows. -/
namespace Sys2Proof

/-- Why a decoder answers no instruction. -/
inductive DecodeError where
  /-- A chunk needs bytes that are not there (R67: the only failure of the chunk decoder). -/
  | outOfBytes
  /-- OP is 0x0 or 0x5..0xF (R72). -/
  | illegalOp
  /-- One of CMD bits 7:5 is set (R72). -/
  | reservedBits
  /-- CMD bit 4 is set with an OP other than 0x1 (R72). -/
  | strayChannelBit
  deriving DecidableEq, Repr

/-! ### The pixel ports' layout (10_state.md R15) -/

/-- The 32-bit word `{r, g, b, a}` of R15. -/
def Pixel.toWord (p : Pixel) : PixelWord := p.r ++ p.g ++ p.b ++ p.a

/-- The pixel a 32-bit port word holds (R15). -/
def Pixel.ofWord (w : PixelWord) : Pixel :=
  ⟨w.extractLsb' 24 8, w.extractLsb' 16 8, w.extractLsb' 8 8, w.extractLsb' 0 8⟩

/-! ### Decoding the chunk stream -/

/-- The length of a chunk, a function of its first byte alone (R54, R62). -/
def chunkLength (b0 : Byte) : Nat :=
  if b0 = 0xFE#8 then 4
  else if b0 = 0xFF#8 then 5
  else if b0.extractLsb' 6 2 = 0b10#2 then 2
  else 1

/-- A stored field read unsigned and unbiased by subtraction (R63). -/
def unbias {w : Nat} (field : BitVec w) (bias : Int) : Int := (field.toNat : Int) - bias

/-- `INDEX` from its byte (R55, R64). -/
def decodeIndex (b0 : Byte) : Chunk := .index (b0.extractLsb' 0 6)

/-- `DIFF` from its byte (R56, R63). -/
def decodeDiff (b0 : Byte) : Chunk :=
  .diff (unbias (b0.extractLsb' 4 2) 2) (unbias (b0.extractLsb' 2 2) 2) (unbias (b0.extractLsb' 0 2) 2)

/-- `LUMA` from its two bytes (R57, R63). -/
def decodeLuma (b0 b1 : Byte) : Chunk :=
  .luma (unbias (b0.extractLsb' 0 6) 32) (unbias (b1.extractLsb' 4 4) 8) (unbias (b1.extractLsb' 0 4) 8)

/-- `RUN` from its byte (R58, R63): the run length is the field plus 1. -/
def decodeRun (b0 : Byte) : Chunk := .run ((b0.extractLsb' 0 6).toNat + 1)

/-- The chunk at the head of a byte sequence, and the bytes after it; the tests stand in the order of R61. -/
def decodeChunk : List Byte → Except DecodeError (Chunk × List Byte)
  | [] => .error .outOfBytes
  | b0 :: rest =>
    if b0 = 0xFE#8 then
      match rest with
      | r :: g :: b :: rest => .ok (.rgb r g b, rest)
      | _ => .error .outOfBytes
    else if b0 = 0xFF#8 then
      match rest with
      | r :: g :: b :: a :: rest => .ok (.rgba r g b a, rest)
      | _ => .error .outOfBytes
    else if b0.extractLsb' 6 2 = 0b00#2 then .ok (decodeIndex b0, rest)
    else if b0.extractLsb' 6 2 = 0b01#2 then .ok (decodeDiff b0, rest)
    else if b0.extractLsb' 6 2 = 0b10#2 then
      match rest with
      | b1 :: rest => .ok (decodeLuma b0 b1, rest)
      | _ => .error .outOfBytes
    else .ok (decodeRun b0, rest)

/-! ### Decoding the command port -/

/-- The command on the port (R70 to R72): CMD bits 3:0 are OP, bit 4 is C, bits 7:5 must be 0. -/
def decodeCommand (c : Command) : Except DecodeError Instr :=
  if c.cmd.extractLsb' 5 3 ≠ 0#3 then .error .reservedBits
  else if c.cmd.extractLsb' 0 4 = 0x1#4 then .ok (.encStart (c.cmd.getLsbD 4) c.n)
  else if c.cmd.extractLsb' 0 4 = 0x2#4 then
    if c.cmd.getLsbD 4 then .error .strayChannelBit else .ok (.encPixel (Pixel.ofWord c.pixel))
  else if c.cmd.extractLsb' 0 4 = 0x3#4 then
    if c.cmd.getLsbD 4 then .error .strayChannelBit else .ok (.decStart c.n c.input)
  else if c.cmd.extractLsb' 0 4 = 0x4#4 then
    if c.cmd.getLsbD 4 then .error .strayChannelBit else .ok .decStep
  else .error .illegalOp

/-! ### The encoder -/

/-- A signed value stored biased and unsigned in a field of `w` bits (R65). -/
def biased (w : Nat) (v bias : Int) : BitVec w := BitVec.ofInt w (v + bias)

/-- The bytes of a chunk, each byte its tag and its fields from bit 7 down (R38, R39, R55 to R60). -/
def encodeChunk : Chunk → List Byte
  | .index i => [0b00#2 ++ i]
  | .diff dr dg db => [0b01#2 ++ biased 2 dr 2 ++ biased 2 dg 2 ++ biased 2 db 2]
  | .luma dg du dv => [0b10#2 ++ biased 6 dg 32, biased 4 du 8 ++ biased 4 dv 8]
  | .run len => [0b11#2 ++ BitVec.ofNat 6 (len - 1)]
  | .rgb r g b => [0xFE#8, r, g, b]
  | .rgba r g b a => [0xFF#8, r, g, b, a]

/-- The command byte and operand ports of a command (R71); a port the command does not read is 0. Chunks are no commands. -/
def encodeCommand : Instr → Option Command
  | .encStart c n => some ⟨if c then 0x11#8 else 0x01#8, 0, n, []⟩
  | .encPixel p => some ⟨0x02#8, p.toWord, 0, []⟩
  | .decStart n bytes => some ⟨0x03#8, 0, n, bytes⟩
  | .decStep => some ⟨0x04#8, 0, 0, []⟩
  | .index _ => none
  | .diff _ _ _ => none
  | .luma _ _ _ => none
  | .run _ => none
  | .rgb _ _ _ => none
  | .rgba _ _ _ _ => none

/-- The words of an instruction: a chunk's bytes, or a command's command byte (its operands travel on the other ports). -/
def encode : Instr → List Byte
  | .index i => encodeChunk (.index i)
  | .diff dr dg db => encodeChunk (.diff dr dg db)
  | .luma dg du dv => encodeChunk (.luma dg du dv)
  | .run len => encodeChunk (.run len)
  | .rgb r g b => encodeChunk (.rgb r g b)
  | .rgba r g b a => encodeChunk (.rgba r g b a)
  | .encStart c _ => [if c then 0x11#8 else 0x01#8]
  | .encPixel _ => [0x02#8]
  | .decStart _ _ => [0x03#8]
  | .decStep => [0x04#8]

/-- R75: the RUN chunks that `RUNS n` stands for. -/
def runsChunks (n : Nat) : List Chunk :=
  List.replicate (n / Config.maxRun) (.run Config.maxRun) ++
    if n % Config.maxRun = 0 then [] else [.run (n % Config.maxRun)]

/-! ### The opcode table's rows and its numbering of bits -/

/-- A row of spec/opcode_table.json: its first byte under `mask` is `pattern` and is not in `exclude`; its length in bytes. -/
structure Row where
  mnemonic : String
  mask : Byte
  pattern : Byte
  exclude : List Byte
  length : Nat
  deriving DecidableEq, Repr

/-- The row of an instruction. -/
def Instr.row : Instr → Row
  | .index _ => ⟨"INDEX", 0xC0#8, 0x00#8, [], 1⟩
  | .diff _ _ _ => ⟨"DIFF", 0xC0#8, 0x40#8, [], 1⟩
  | .luma _ _ _ => ⟨"LUMA", 0xC0#8, 0x80#8, [], 2⟩
  | .run _ => ⟨"RUN", 0xC0#8, 0xC0#8, [0xFE#8, 0xFF#8], 1⟩
  | .rgb _ _ _ => ⟨"RGB", 0xFF#8, 0xFE#8, [], 4⟩
  | .rgba _ _ _ _ => ⟨"RGBA", 0xFF#8, 0xFF#8, [], 5⟩
  | .encStart _ _ => ⟨"ENC_START", 0xEF#8, 0x01#8, [], 1⟩
  | .encPixel _ => ⟨"ENC_PIXEL", 0xFF#8, 0x02#8, [], 1⟩
  | .decStart _ _ => ⟨"DEC_START", 0xFF#8, 0x03#8, [], 1⟩
  | .decStep => ⟨"DEC_STEP", 0xFF#8, 0x04#8, [], 1⟩

/-- Whether a byte matches a row. -/
def Row.accepts (row : Row) (b : Byte) : Bool := decide (b &&& row.mask = row.pattern) && decide (b ∉ row.exclude)

/-- The table's chunk rows, in its order. -/
def chunkRows : List Row :=
  [Instr.row (.index 0), Instr.row (.diff 0 0 0), Instr.row (.luma 0 0 0), Instr.row (.run 1), Instr.row (.rgb 0 0 0),
    Instr.row (.rgba 0 0 0 0)]

/-- The table's command rows, in its order. -/
def commandRows : List Row :=
  [Instr.row (.encStart false 0), Instr.row (.encPixel (pix 0 0 0 0)), Instr.row (.decStart 0 []), Instr.row .decStep]

/-- The first five bytes (the longest chunk) of a table word: byte k is bits 8k+7..8k, every bit from `nbits` on 0. -/
def tableBytes (nbits w : Nat) : List Byte :=
  (List.range 5).map fun k => BitVec.ofNat 8 (w % 2 ^ nbits / 256 ^ k)

/-- A one-byte table word as a command byte, with operand ports of 0. -/
def tableCommand (nbits w : Nat) : Command := ⟨BitVec.ofNat 8 (w % 2 ^ nbits), 0, 0, []⟩

/-- The command a one-byte table word stands for, if it is one of the five legal command bytes of R71. -/
def tableWordCommand (nbits w : Nat) : Option Instr :=
  if nbits ≤ 8 then
    match decodeCommand (tableCommand nbits w) with
    | .ok i => some i
    | .error _ => none
  else none

/-- The instruction the decoders read from a table word. The table lists two instruction streams whose words overlap (0x01 is
ENC_START on the command port and INDEX 1 in IN); the engine is never in doubt, since each stream has its own port. Here, where
the port is not said, the five legal command bytes are read as commands and every other word as a chunk. Log entry 2. -/
def decodeTableWord (nbits w : Nat) : Option Instr :=
  match tableWordCommand nbits w with
  | some i => some i
  | none =>
    match decodeChunk (tableBytes nbits w) with
    | .ok (c, _) => some c.toInstr
    | .error _ => none

end Sys2Proof
end

