-- ==== Sys2Proof/Machine/State.lean ====
section
/-! DEFINITION. The state of the engine (10_state.md R14 to R32) with the host's side of its ports, the reasons a step can stop,
and the state after reset (R32). -/
namespace Sys2Proof.Machine

/-- MODE (R24). Its encodings stand in Flags.lean; the values 5, 6 and 7, never held, have no constructor. -/
inductive Mode where
  | idle
  | enc
  | encDone
  | dec
  | decDone
  deriving DecidableEq, Repr

/-- ERR (R25, R124): the error kinds. -/
inductive Err where
  /-- NONE: no error. -/
  | none
  /-- ValidationError (R125). -/
  | validation
  /-- FormatError (R126). -/
  | format
  /-- CommandError (R127). -/
  | command
  deriving DecidableEq, Repr

/-- The colour cache: 64 slots of one pixel each (R29). -/
abbrev Cache := Vector Pixel 64

/-- A byte space: the bytes it holds, by offset, the offsets strictly rising. An unlisted offset holds no byte (R35, R36). -/
abbrev Memory := List Host.Cell

/-- The state tuple of R14, the byte spaces IN and OUT of 20_memory.md R33, and two fields of the model's own for the ports. -/
structure State where
  /-- MODE (R24). -/
  mode : Mode
  /-- ERR (R25). -/
  err : Err
  /-- CHAN4 (R26). -/
  chan4 : Bool
  /-- PREV (R17). -/
  prev : Pixel
  /-- RUN (R18). -/
  run : BitVec 6
  /-- DRUN (R19). -/
  drun : BitVec 6
  /-- COUNT (R20). -/
  count : Count
  /-- POS (R21). -/
  pos : Count
  /-- LEN (R22). -/
  len : Count
  /-- CACHE (R29). -/
  cache : Cache
  /-- IN (R35). -/
  input : Memory
  /-- OUT (R36). -/
  out : Memory
  /-- OUTLEN (R33, R36), the number of bytes appended to OUT: 64 bits wide, as R33's offsets are (DEDUCED, log entry 4). -/
  outLen : Count
  /-- The model's own: what the host will put on the engine's inputs, next first (log entry 3). -/
  port : List PortInput
  /-- The model's own: the response of the last command performed (R73), none before the first (log entry 3). -/
  response : Option Response
  deriving DecidableEq, Repr

/-- Why the machine stops with a fault. -/
inductive Fault where
  /-- Raised by DEC_STEP's read of IN at an offset below LEN at which IN holds no byte. No run from reset reaches such a state
  (IN holds exactly the offsets below LEN); R35 gives IN no other byte. Safe. Log entry 8. -/
  | inputUnmapped (offset : Nat)
  /-- Raised by ENC_PIXEL when OUT has no room for its bytes: OUTLEN would pass 2^64 - 1, and OUT has no offset beyond 64 bits
  (R33). The error kinds of R124 have none for it. Safe. DESIGN CHOICE, log entry 4. -/
  | outputFull
  deriving DecidableEq, Repr

/-- Why the model gives a step no meaning. -/
inductive Refusal where
  /-- Raised by `exec` for an instruction without a meaning. Safe. -/
  | notModelled (mnemonic : String)
  /-- Raised by DEC_START for an input sequence of 2^64 bytes or more, whose length the 64-bit LEN cannot hold (R8, R22).
  Safe. Log entry 5. -/
  | inputTooLong
  deriving DecidableEq, Repr

/-- What a meaning answers. -/
abbrev Result := Host.Outcome State Fault Refusal

/-- The seed `pix(0, 0, 0, 255)` of PREV (R17). -/
abbrev seedPixel : Pixel := pix 0 0 0 255

/-- The cleared value `pix(0, 0, 0, 0)` of a slot (R29). -/
abbrev clearPixel : Pixel := pix 0 0 0 0

/-- Every slot cleared (R29, R53). -/
abbrev clearCache : Cache := Vector.replicate 64 clearPixel

/-- R32: the value of every piece of state after a hardware reset, with nothing on the ports. -/
def State.reset : State where
  mode := .idle
  err := .none
  chan4 := false
  prev := seedPixel
  run := 0
  drun := 0
  count := 0
  pos := 0
  len := 0
  cache := clearCache
  input := []
  out := []
  outLen := 0
  port := []
  response := none

end Sys2Proof.Machine
end

