-- ==== Sys2Proof/Machine/Operands.lean ====
section
/-! DEFINITION. The arithmetic of pixel operands: `wrap8`, `s8` (00_scope.md R10), the channel deltas (41_encoder.md R90), the
reconstruction from deltas (30_encoding.md R63), and the channel-mode alpha (41_encoder.md R87). -/
namespace Sys2Proof.Machine

/-- `wrap8(v) = v mod 256` (R10). -/
def wrap8 (v : Int) : Byte := BitVec.ofInt 8 v

/-- `s8(v)`: the signed reading of `wrap8(v)` (R10). -/
def s8 (v : Int) : Int := if v % 256 < 128 then v % 256 else v % 256 - 256

/-- `s8(current - previous)` of one channel (R90). -/
def delta (current previous : Byte) : Int := s8 ((current.toNat : Int) - (previous.toNat : Int))

/-- One channel with a signed delta added back, modulo 256 (R63). -/
def addDelta (previous : Byte) (d : Int) : Byte := wrap8 ((previous.toNat : Int) + d)

/-- The previous pixel with three channel deltas added and its own alpha (R106, R107). -/
def Pixel.addDeltas (p : Pixel) (dr dg db : Int) : Pixel :=
  ⟨addDelta p.r dr, addDelta p.g dg, addDelta p.b db, p.a⟩

/-- The input pixel under the channel mode: alpha replaced by 255 when CHAN4 = 0 (R87, D10; log entry 12). -/
def effectivePixel (chan4 : Bool) (p : Pixel) : Pixel :=
  if chan4 then p else ⟨p.r, p.g, p.b, 255#8⟩

end Sys2Proof.Machine
end

