-- ==== Sys2Proof/Machine/Flags.lean ====
section
/-! DEFINITION. The status fields' encodings and the STATUS byte (10_state.md R24, R25, R27), and the comparison results of the
chunk selector, which are no state (R23). -/
namespace Sys2Proof.Machine

/-- The 3-bit encoding of MODE (R24). -/
def Mode.code : Mode → BitVec 3
  | .idle => 0
  | .enc => 1
  | .encDone => 2
  | .dec => 3
  | .decDone => 4

/-- The 2-bit encoding of ERR (R25). -/
def Err.code : Err → BitVec 2
  | .none => 0
  | .validation => 1
  | .format => 2
  | .command => 3

/-- STATUS: bits 2:0 = MODE, bits 4:3 = ERR, bits 7:5 = 0 (R27). -/
def statusByte (m : Mode) (e : Err) : Byte := 0#3 ++ e.code ++ m.code

/-- The MODE field of a status byte, as the host reads it (R27). -/
def statusMode (status : Byte) : BitVec 3 := status.extractLsb' 0 3

/-- The ERR field of a status byte, as the host reads it (R27). -/
def statusErr (status : Byte) : BitVec 2 := status.extractLsb' 3 2

/-- The DIFF guard's delta condition: each delta in [-2, 1] (R89, R96). -/
def diffFits (dr dg db : Int) : Bool :=
  decide (-2 ≤ dr ∧ dr ≤ 1) && decide (-2 ≤ dg ∧ dg ≤ 1) && decide (-2 ≤ db ∧ db ≤ 1)

/-- The LUMA guard's delta condition: dg in [-32, 31], dr - dg and db - dg in [-8, 7] (R89, R97). -/
def lumaFits (dr dg db : Int) : Bool :=
  decide (-32 ≤ dg ∧ dg ≤ 31) && decide (-8 ≤ dr - dg ∧ dr - dg ≤ 7) && decide (-8 ≤ db - dg ∧ db - dg ≤ 7)

end Sys2Proof.Machine
end

