-- ==== Sys2Proof/Machine/Ops.lean ====
section
/-! DEFINITION. The shared operations: reading and writing a byte space (20_memory.md R35, R36), the response (R73), raising an
error (60_exceptions.md R128), the re-initialisation a START performs (R143), and counting a pixel (10_state.md R20). -/
namespace Sys2Proof.Machine

/-! ### Byte spaces -/

/-- The byte at an offset; none where the space holds no byte (DESIGN CHOICE, log entry 8). -/
def Memory.read : Memory → Nat → Option Byte
  | [], _ => none
  | (k, v) :: m, a => if k = a then some v else Memory.read m a

/-- `MemRead(a, n)` of 00_scope.md R11: the n bytes from offset a, in stream order; none if one of them is not held. -/
def Memory.readBytes (m : Memory) (a : Nat) : Nat → Option (List Byte)
  | 0 => some []
  | n + 1 =>
    match m.read a, Memory.readBytes m (a + 1) n with
    | some b, some bs => some (b :: bs)
    | _, _ => none

/-- One byte written at an offset, the offsets kept strictly rising. -/
def Memory.write : Memory → Nat → Byte → Memory
  | [], a, b => [(a, b)]
  | (k, v) :: m, a, b =>
    if a < k then (a, b) :: (k, v) :: m
    else if a = k then (a, b) :: m
    else (k, v) :: Memory.write m a b

/-- Bytes written at consecutive offsets from a, first byte first. -/
def Memory.writeBytes (m : Memory) (a : Nat) : List Byte → Memory
  | [] => m
  | b :: bs => Memory.writeBytes (m.write a b) (a + 1) bs

/-- A byte sequence as a space whose first byte has offset a. -/
def Memory.ofBytesAt (a : Nat) : List Byte → Memory
  | [] => []
  | b :: bs => (a, b) :: Memory.ofBytesAt (a + 1) bs

/-- The byte sequence the host hands to DEC_START, offset 0 first (R35). -/
def Memory.ofBytes (bytes : List Byte) : Memory := Memory.ofBytesAt 0 bytes

/-- The canonical form: offsets strictly rising. (An unlisted offset holds no byte, so no entry repeats what it reads as.) -/
def Memory.wf : Memory → Bool
  | [] => true
  | [_] => true
  | (k, _) :: (k', v') :: m => decide (k < k') && Memory.wf ((k', v') :: m)

/-! ### Responding, raising, starting -/

/-- The STATUS byte of a state (R27). -/
def State.status (s : State) : Byte := statusByte s.mode s.err

/-- The command's response `(STATUS, BYTES, PIXEL)`, STATUS read after the command (R73). -/
def State.respond (s : State) (bytes : List Byte) (px : Option Pixel) : State :=
  { s with response := some ⟨s.status, bytes, px.map Pixel.toWord⟩ }

/-- `return (STATUS, [], absent)` with no effect: a command under a held error (R129). -/
def State.ignore (s : State) : State := s.respond [] none

/-- TAKING AN ERROR, `raise E` (R128): ERR takes the code, nothing else of the engine changes, and the response is
`(STATUS, [], absent)`. There is no vector, no saved register and no mode switch, and no return-from-error command (R131): a
START or reset clears ERR. -/
def State.raise (s : State) (e : Err) : State := State.ignore { s with err := e }

/-- The part of a START that both have in common (R86, R103, R143): CACHE, PREV, RUN, DRUN, POS and OUT cleared, LEN and IN
emptied, ERR cleared. It is also the only way back from an error besides reset (R131). -/
def State.clearPass (s : State) : State :=
  { s with
    cache := clearCache, prev := seedPixel, run := 0, drun := 0,
    pos := 0, len := 0, input := [], out := [], outLen := 0, err := .none }

/-- The last part of a START (R86, R103): with N = 0 the start is rejected with the error `e` and MODE is IDLE; otherwise MODE is
`m` and COUNT is N. -/
def State.startCount (s : State) (n : Count) (m : Mode) (e : Err) : State :=
  if n = 0 then State.raise { s with mode := .idle, count := 0 } e
  else State.ignore { s with mode := m, count := n }

/-- One pixel done (R20): COUNT - 1, and MODE becomes `done` when COUNT reaches 0. -/
def State.countPixel (s : State) (done : Mode) : State :=
  { s with
    count := s.count - 1
    mode := if s.count - 1 = 0 then done else s.mode }

/-- Whether n more bytes have a place in OUT: the 64-bit OUTLEN can count them (R33; DEDUCED, log entry 4). -/
abbrev State.hasRoom (s : State) (n : Nat) : Prop := s.outLen.toNat + n < 2 ^ 64

/-- `Emit(v)` of R11: the bytes appended to OUT, OUTLEN grown by their number (R36). -/
def State.emit (s : State) (bytes : List Byte) : State :=
  { s with out := s.out.writeBytes s.outLen.toNat bytes, outLen := s.outLen + BitVec.ofNat 64 bytes.length }

/-- An illegal command byte (R72, R127): CommandError, unless an error is already held (R129). -/
def illegalCommand (s : State) : Result :=
  if s.err ≠ .none then .next s.ignore else .next (s.raise .command)

end Sys2Proof.Machine
end

