-- ==== Sys2Proof/Machine/Cache.lean ====
section
/-! DEFINITION. The colour cache's three operations (40_color_cache.md R76 to R80). -/
namespace Sys2Proof.Machine

/-- R76: `hash(p) = (3r + 5g + 7b + 11a) mod 64`, the sum computed exactly. -/
def hash (p : Pixel) : Slot :=
  BitVec.ofNat 6 ((p.r.toNat * 3 + p.g.toNat * 5 + p.b.toNat * 7 + p.a.toNat * 11) % 64)

/-- R78: the slot's current contents; every 6-bit index names a slot (R34). -/
def Cache.lookup (c : Cache) (i : Slot) : Pixel := getElem c i.toNat i.isLt

/-- R79: the encoder's cache test. -/
def Cache.hit (c : Cache) (p : Pixel) : Bool := decide (c.lookup (hash p) = p)

/-- R80: `CACHE[hash(p)] <- p`, unconditionally. -/
def Cache.update (c : Cache) (p : Pixel) : Cache := c.set (hash p).toNat p ((hash p).isLt)

/-- R80 on the engine's state. -/
def State.update (s : State) (p : Pixel) : State := { s with cache := s.cache.update p }

end Sys2Proof.Machine
end

