-- ==== Sys2Proof/Machine/Decoder.lean ====
section
/-! DEFINITION. The decoder: DEC_START, DEC_STEP and the six chunk kinds it executes (42_decoder.md). A chunk is executed by the
DEC_STEP that finds it at POS, so a chunk's meaning is that DEC_STEP: the guards of R104, then the chunk's own rule (DEDUCED, log entry 7). -/
namespace Sys2Proof.Machine

/-- R103: DEC_START. Accepted in every MODE and whatever ERR holds. -/
def execDecStart (n : Count) (bytes : List Byte) (s : State) : Result :=
  if 2 ^ 64 ≤ bytes.length then .refused .inputTooLong
  else
    .next (State.startCount
      { s.clearPass with chan4 := false, input := Memory.ofBytes bytes, len := BitVec.ofNat 64 bytes.length }
      n .dec .format)

/-- The common tail of R104: the cache updated, PREV written, the pixel counted and returned; DRUN cleared at the image's last
pixel (R113). -/
def producePixel (px : Pixel) (s : State) : State :=
  State.respond
    { State.countPixel { s.update px with prev := px } .decDone with
      drun := if s.count - 1 = 0 then 0 else s.drun } [] (some px)

/-- A chunk of n bytes at POS that yields px and leaves `owed` repetitions: the bound check of R112, POS advanced, the tail. -/
def consumeChunk (n : Nat) (px : Pixel) (owed : BitVec 6) (s : State) : Result :=
  if s.len.toNat < s.pos.toNat + n then .next (s.raise .format)
  else .next (producePixel px { s with pos := s.pos + BitVec.ofNat 64 n, drun := owed })

/-- R111: the repetition step. -/
def repeatPixel (s : State) : Result := .next (producePixel s.prev { s with drun := s.drun - 1 })

/-- The front of R104: the sticky error, the mode check and the repetitions still owed; else `chunkAtPos` is performed. -/
def decodeGuard (chunkAtPos : State → Result) (s : State) : Result :=
  if s.err ≠ .none then .next s.ignore
  else if s.mode ≠ .dec then .next (s.raise .command)
  else if s.drun ≠ 0 then repeatPixel s
  else chunkAtPos s

/-! ### One rule per chunk kind -/

/-- R105. -/
def indexChunk (i : Slot) (s : State) : Result := consumeChunk 1 (s.cache.lookup i) s.drun s

/-- R106. -/
def diffChunk (dr dg db : Int) (s : State) : Result := consumeChunk 1 (Pixel.addDeltas s.prev dr dg db) s.drun s

/-- R107: dr = dg + du, db = dg + dv. -/
def lumaChunk (dg du dv : Int) (s : State) : Result :=
  consumeChunk 2 (Pixel.addDeltas s.prev (dg + du) dg (dg + dv)) s.drun s

/-- R108: the first of `len` pixels; `len - 1` repetitions are owed. -/
def runChunk (len : Nat) (s : State) : Result := consumeChunk 1 s.prev (BitVec.ofNat 6 (len - 1)) s

/-- R109: alpha is PREV's. -/
def rgbChunk (r g b : Byte) (s : State) : Result := consumeChunk 4 ⟨r, g, b, s.prev.a⟩ s.drun s

/-- R110. -/
def rgbaChunk (r g b a : Byte) (s : State) : Result := consumeChunk 5 ⟨r, g, b, a⟩ s.drun s

/-- The dispatch of R104 on the chunk at POS. -/
def performChunk (c : Chunk) (s : State) : Result :=
  match c with
  | .index i => indexChunk i s
  | .diff dr dg db => diffChunk dr dg db s
  | .luma dg du dv => lumaChunk dg du dv s
  | .run len => runChunk len s
  | .rgb r g b => rgbChunk r g b s
  | .rgba r g b a => rgbaChunk r g b a s

/-- INDEX, decoded (R104, R105). -/
def execIndex (i : Slot) (s : State) : Result := decodeGuard (indexChunk i) s

/-- DIFF, decoded (R104, R106). -/
def execDiff (dr dg db : Int) (s : State) : Result := decodeGuard (diffChunk dr dg db) s

/-- LUMA, decoded (R104, R107). -/
def execLuma (dg du dv : Int) (s : State) : Result := decodeGuard (lumaChunk dg du dv) s

/-- RUN, decoded (R104, R108). -/
def execRun (len : Nat) (s : State) : Result := decodeGuard (runChunk len) s

/-- RGB, decoded (R104, R109). -/
def execRgb (r g b : Byte) (s : State) : Result := decodeGuard (rgbChunk r g b) s

/-- RGBA, decoded (R104, R110). -/
def execRgba (r g b a : Byte) (s : State) : Result := decodeGuard (rgbaChunk r g b a) s

/-! ### DEC_STEP -/

/-- Why no chunk is read at POS. -/
inductive FetchStop where
  /-- The chunk is not wholly inside IN (R112). -/
  | truncated
  /-- IN holds no byte at an offset below LEN. -/
  | unmapped (offset : Nat)
  deriving DecidableEq, Repr

/-- The chunk at POS (R104, R112): its first byte after the check `POS + 1 <= LEN`, its length from that byte (R54), its bytes
after the check of the whole chunk. -/
def fetchChunk (s : State) : Except FetchStop Chunk :=
  if s.len.toNat < s.pos.toNat + 1 then .error .truncated
  else
    match s.input.read s.pos.toNat with
    | none => .error (.unmapped s.pos.toNat)
    | some b0 =>
      if s.len.toNat < s.pos.toNat + chunkLength b0 then .error .truncated
      else
        match s.input.readBytes s.pos.toNat (chunkLength b0) with
        | none => .error (.unmapped s.pos.toNat)
        | some bytes =>
          match decodeChunk bytes with
          | .ok (c, _) => .ok c
          | .error _ => .error .truncated

/-- R104 past its guards: the chunk at POS is read and performed. -/
def decodeAtPos (s : State) : Result :=
  match fetchChunk s with
  | .ok c => performChunk c s
  | .error .truncated => .next (s.raise .format)
  | .error (.unmapped k) => .fault (.inputUnmapped k)

/-- R104: DEC_STEP. -/
def execDecStep (s : State) : Result := decodeGuard decodeAtPos s

end Sys2Proof.Machine
end

