-- ==== Sys2Proof/Machine/Encoder.lean ====
section
/-! DEFINITION. The encoder: ENC_START, ENC_PIXEL and the chunk selector (41_encoder.md). -/
namespace Sys2Proof.Machine

/-- R86: ENC_START. Accepted in every MODE and whatever ERR holds. -/
def execEncStart (c : Bool) (n : Count) (s : State) : Result :=
  .next (State.startCount { s.clearPass with chan4 := c } n .enc .validation)

/-- The chunk of a cache miss with alpha unchanged, by its deltas (R89, priorities 3, 4 and 6; R96, R97, R99). -/
def colourChunk (p : Pixel) (dr dg db : Int) : Chunk :=
  if diffFits dr dg db then .diff dr dg db
  else if lumaFits dr dg db then .luma dg (dr - dg) (db - dg)
  else .rgb p.r p.g p.b

/-- The chunk of a pixel that differs from PREV (R89, priorities 2 to 6, in the order of R88). -/
def selectChunk (c : Cache) (prev p : Pixel) : Chunk :=
  if c.hit p then .index (hash p)
  else if p.a ≠ prev.a then .rgba p.r p.g p.b p.a
  else colourChunk p (delta p.r prev.r) (delta p.g prev.g) (delta p.b prev.b)

/-- The RUN chunk of an open run of `run` pixels (R92, R93). -/
def runBytes (run : BitVec 6) : List Byte := encodeChunk (.run run.toNat)

/-- The end of every ENC_PIXEL that encodes (R88): the pixel counted, the bytes appended to OUT and returned. -/
def finishPixel (out : List Byte) (s : State) : State :=
  ((s.countPixel .encDone).emit out).respond out none

/-- Whether a pixel equal to PREV closes the run it extends: at 62 pixels or at the image's last pixel (R92).
A RUN of 62 or 63, which no run reaches (R18), goes on (DESIGN CHOICE, log entry 13). -/
def runCloses (s : State) : Bool := decide ((s.run + 1).toNat = Config.maxRun) || decide (s.count = 1)

/-- The bytes of a pixel equal to PREV: the RUN chunk if it closes the run, none otherwise (R92). -/
def runPixelBytes (s : State) : List Byte := if runCloses s then runBytes (s.run + 1) else []

/-- R92: a pixel equal to PREV extends the run, which is flushed if the pixel closes it. -/
def encodeRunPixel (p : Pixel) (s : State) : State :=
  finishPixel (runPixelBytes s) { s.update p with run := if runCloses s then 0 else s.run + 1 }

/-- The bytes of a pixel that differs from PREV: the open run flushed first (R93), then the pixel's own chunk (R89). -/
def differingBytes (p : Pixel) (s : State) : List Byte :=
  (if s.run = 0 then [] else runBytes s.run) ++ encodeChunk (selectChunk s.cache s.prev p)

/-- R88, the path of a pixel that differs from PREV. -/
def encodeDifferingPixel (p : Pixel) (s : State) : State :=
  finishPixel (differingBytes p s) { s.update p with run := 0, prev := p }

/-- R88 past its guards: the state after one pixel encoded. -/
def encodePixel (p : Pixel) (s : State) : State :=
  if p = s.prev then encodeRunPixel p s else encodeDifferingPixel p s

/-- The bytes one ENC_PIXEL emits for the pixel p (R88, R100). -/
def pixelBytes (p : Pixel) (s : State) : List Byte := if p = s.prev then runPixelBytes s else differingBytes p s

/-- R88 past its guards: the pixel encoded where OUT has room for its bytes (R33). -/
def encodeWithRoom (p : Pixel) (s : State) : Result :=
  if s.hasRoom (pixelBytes p s).length then .next (encodePixel p s) else .fault .outputFull

/-- R88: ENC_PIXEL. -/
def execEncPixel (p : Pixel) (s : State) : Result :=
  if s.err ≠ .none then .next s.ignore
  else if s.mode = .encDone then .next (s.raise .validation)
  else if s.mode ≠ .enc then .next (s.raise .command)
  else encodeWithRoom (effectivePixel s.chan4 p) s

end Sys2Proof.Machine
end

