-- ==== Sys2Proof/Machine/Dispatch.lean ====
section
/-! DEFINITION. One arm per instruction. -/
namespace Sys2Proof.Machine

def exec (i : Instr) (s : State) : Host.Outcome State Fault Refusal :=
  match i with
  -- the six chunk kinds (42_decoder.md)
  | .index k => Sys2Proof.Machine.execIndex k s
  | .diff dr dg db => Sys2Proof.Machine.execDiff dr dg db s
  | .luma dg du dv => Sys2Proof.Machine.execLuma dg du dv s
  | .run len => Sys2Proof.Machine.execRun len s
  | .rgb r g b => Sys2Proof.Machine.execRgb r g b s
  | .rgba r g b a => Sys2Proof.Machine.execRgba r g b a s
  -- the four commands (41_encoder.md, 42_decoder.md)
  | .encStart c n => Sys2Proof.Machine.execEncStart c n s
  | .encPixel p => Sys2Proof.Machine.execEncPixel p s
  | .decStart n bytes => Sys2Proof.Machine.execDecStart n bytes s
  | .decStep => Sys2Proof.Machine.execDecStep s

end Sys2Proof.Machine
end

