-- ==== Sys2Proof/Machine/Issue.lean ====
section
/-! DEFINITION. One moment of the engine's inputs performed: the reset input, a command, or nothing (70_reset_and_hazards.md R141,
R142; 60_exceptions.md R130, R140). -/
namespace Sys2Proof.Machine

/-- R141: asserting reset puts every piece of state at its reset value; the inputs still to come are the host's. -/
def performReset (s : State) : State := { State.reset with port := s.port }

/-- A command on the port: performed if its byte is legal (R71), CommandError otherwise (R72). -/
def performCommand (c : Command) (s : State) : Result :=
  match decodeCommand c with
  | .ok i => exec i s
  | .error _ => illegalCommand s

/-- One moment of the inputs. Reset wins over a command, which is then not performed (R130, R141); with neither, the engine holds
its state (R140, R142; DEDUCED, log entries 9 and 16). -/
def performInput (x : PortInput) (s : State) : Result :=
  if x.reset then .next (performReset s)
  else
    match x.command with
    | some c => performCommand c s
    | none => .next s

/-- The command port holding one DEC_STEP, which is how a chunk in IN is fetched (R104). -/
def decStepInput : PortInput := ⟨false, some ⟨0x04#8, 0, 0, []⟩⟩

/-- `s` with a command as the next input. -/
def State.withCommandWord (s : State) (nbits w : Nat) : State :=
  { s with port := ⟨false, some (tableCommand nbits w)⟩ :: s.port }

/-- `s` decoding, with a DEC_STEP as the next input and IN holding the word's bytes at POS, as a DEC_START leaves it. -/
def State.withChunkWord (s : State) (nbits w : Nat) : State :=
  { s with
    port := decStepInput :: s.port
    mode := .dec, err := .none, drun := 0
    count := if s.count = 0 then 1 else s.count
    input := Memory.ofBytes (tableBytes nbits w), pos := 0, len := 5 }

end Sys2Proof.Machine
end

