-- ==== Sys2Proof/Machine/Step.lean ====
section
/-! DEFINITION. One step: the next moment of the engine's inputs is taken and performed; and where a word to be run next is put. -/
namespace Sys2Proof.Machine

/-- One step: one command is one atomic transaction, in the order the host issues them (20_memory.md R44, R48). With nothing on
the ports the engine holds its state (60_exceptions.md R140). -/
def step (s : State) : Host.Outcome State Fault Refusal :=
  match s.port with
  | [] => .next s
  | x :: rest => performInput x { s with port := rest }

/-- `s` with a table word as the next thing to run: a command word on the command port, a chunk word in IN at POS with a DEC_STEP
on the command port (log entries 2 and 6). -/
def State.withFetchWord (s : State) (nbits w : Nat) : State :=
  match tableWordCommand nbits w with
  | some _ => s.withCommandWord nbits w
  | none => s.withChunkWord nbits w

end Sys2Proof.Machine
end

