-- ==== Sys2Proof/Machine/Framing.lean ====
section
/-! DEFINITION. The host at the boundary (43_stream_framing.md): the 14-byte header, the end marker, and the host's encode and
decode around the engine (R117 to R123). The host reaches the engine only through its command port and reads only responses. -/
namespace Sys2Proof.Machine

/-- The channel count of an Image, 3 or 4 (00_scope.md R13). -/
inductive Channels where
  | three
  | four
  deriving DecidableEq, Repr

/-- The channel byte of the header (R117). -/
def Channels.toByte : Channels → Byte
  | .three => 3#8
  | .four => 4#8

/-- The channel count a header byte names; none for a byte not in (3, 4) (R121). -/
def Channels.ofByte (b : Byte) : Option Channels :=
  if b = 3#8 then some .three else if b = 4#8 then some .four else none

/-- An Image (R13): uint32 width and height, channel count, colorspace tag 0 or 1, pixels in row-major order. -/
structure Image where
  width : BitVec 32
  height : BitVec 32
  channels : Channels
  colorspace : BitVec 1
  pixels : List Pixel
  deriving DecidableEq, Repr

/-- `width * height`, exact (R8: below 2^64). -/
def Image.area (im : Image) : Nat := im.width.toNat * im.height.toNat

/-- What the host's encode and decode answer besides a result. -/
inductive HostStop where
  /-- ValidationError (R120). -/
  | validationError
  /-- FormatError (R121). -/
  | formatError
  /-- The engine stopped with a fault or a refusal of the model: the run is outside the spec. -/
  | engineStopped
  /-- The engine did not answer as R120 and R121 expect (no response, or no pixel in one). -/
  | protocol
  deriving DecidableEq, Repr

/-- `be32(v)`: the 4 bytes of v, most significant first (R120). -/
def be32 (v : BitVec 32) : List Byte :=
  [v.extractLsb' 24 8, v.extractLsb' 16 8, v.extractLsb' 8 8, v.extractLsb' 0 8]

/-- The 32-bit value of four bytes, most significant first (R121). -/
def ofBe32 (b0 b1 b2 b3 : Byte) : BitVec 32 := b0 ++ b1 ++ b2 ++ b3

/-- The 8-byte end marker (R119). -/
def endMarker : List Byte := [0, 0, 0, 0, 0, 0, 0, 1]

/-- The 14-byte header (R117, R120). -/
def header (im : Image) : List Byte :=
  be32 Config.magic ++ be32 im.width ++ be32 im.height ++ [im.channels.toByte, im.colorspace.setWidth 8]

/-- The host issues one command: alone on the port, and the engine steps (R123). -/
def issue (c : Command) (s : State) : Result := step { s with port := [⟨false, some c⟩] }

/-- The commands as the host puts them on the port (R71). -/
def encStartCommand (c : Bool) (n : Count) : Command := ⟨if c then 0x11#8 else 0x01#8, 0, n, []⟩

def encPixelCommand (p : Pixel) : Command := ⟨0x02#8, p.toWord, 0, []⟩

def decStartCommand (n : Count) (bytes : List Byte) : Command := ⟨0x03#8, 0, n, bytes⟩

def decStepCommand : Command := ⟨0x04#8, 0, 0, []⟩

/-- Commands issued one after another, each after the previous response (R145); it stops at the first fault or refusal. -/
def issueAll : List Command → State → Result
  | [], s => .next s
  | c :: cs, s =>
    match issue c s with
    | .next t => issueAll cs t
    | .fault r => .fault r
    | .refused r => .refused r

/-- R120, the pixel loop: each pixel issued after the previous response, the responses' bytes in order (R147). -/
def encodePixels : List Pixel → State → Except HostStop (List Byte × State)
  | [], s => .ok ([], s)
  | p :: ps, s =>
    match issue (encPixelCommand p) s with
    | .next t =>
      match t.response, encodePixels ps t with
      | some r, .ok (bytes, u) => .ok (r.bytes ++ bytes, u)
      | some _, .error e => .error e
      | none, _ => .error .protocol
    | .fault _ => .error .engineStopped
    | .refused _ => .error .engineStopped

/-- R120: `encode(Image)` as the host performs it on the engine in state s, and the engine's state after it. -/
def hostEncode (im : Image) (s : State) : Except HostStop (List Byte × State) :=
  if im.width = 0 ∨ im.height = 0 then .error .validationError
  else if im.pixels.length ≠ im.area then .error .validationError
  else
    match issue (encStartCommand (decide (im.channels = .four)) (BitVec.ofNat 64 im.area)) s with
    | .next t =>
      match encodePixels im.pixels t with
      | .ok (body, u) => .ok (header im ++ body ++ endMarker, u)
      | .error e => .error e
    | .fault _ => .error .engineStopped
    | .refused _ => .error .engineStopped

/-- R121, the pixel loop: DEC_STEP until STATUS shows FORMAT or DEC_DONE. `fuel` bounds the steps: N, of which the last is
DEC_DONE (R113); DESIGN CHOICE, log entry 11. -/
def decodePixels : Nat → State → Except HostStop (List Pixel × State)
  | 0, _ => .error .protocol
  | fuel + 1, s =>
    match issue decStepCommand s with
    | .next t =>
      match t.response with
      | some r =>
        if statusErr r.status = Err.code .format then .error .formatError
        else
          match r.pixel with
          | some px =>
            if statusMode r.status = Mode.code .decDone then .ok ([Pixel.ofWord px], t)
            else
              match decodePixels fuel t with
              | .ok (pixels, u) => .ok (Pixel.ofWord px :: pixels, u)
              | .error e => .error e
          | none => .error .protocol
      | none => .error .protocol
    | .fault _ => .error .engineStopped
    | .refused _ => .error .engineStopped

/-- R121 after the header: the engine is handed every byte after it, end marker included (TRAILER_IN_INPUT = true, R8). -/
def hostDecodeBody (im : Image) (bytes : List Byte) (s : State) : Except HostStop (Image × State) :=
  match issue (decStartCommand (BitVec.ofNat 64 im.area) bytes) s with
  | .next t =>
    match decodePixels im.area t with
    | .ok (pixels, u) => .ok ({ im with pixels := pixels }, u)
    | .error e => .error e
  | .fault _ => .error .engineStopped
  | .refused _ => .error .engineStopped

/-- The header's fields as an Image with no pixels yet, and the bytes after it; none where a check of R121 fails. -/
def parseHeader : List Byte → Option (Image × List Byte)
  | m0 :: m1 :: m2 :: m3 :: w0 :: w1 :: w2 :: w3 :: h0 :: h1 :: h2 :: h3 :: ch :: cs :: rest =>
    if [m0, m1, m2, m3] ≠ be32 Config.magic then none
    else
      match Channels.ofByte ch with
      | none => none
      | some channels =>
        if cs ≠ 0#8 ∧ cs ≠ 1#8 then none
        else if ofBe32 w0 w1 w2 w3 = 0 ∨ ofBe32 h0 h1 h2 h3 = 0 then none
        else some (⟨ofBe32 w0 w1 w2 w3, ofBe32 h0 h1 h2 h3, channels, cs.setWidth 1, []⟩, rest)
  | _ => none

/-- R121: `decode(bytes)` as the host performs it on the engine in state s, and the engine's state after it. -/
def hostDecode (bytes : List Byte) (s : State) : Except HostStop (Image × State) :=
  match parseHeader bytes with
  | none => .error .formatError
  | some (im, rest) => hostDecodeBody im rest s

end Sys2Proof.Machine
end

