-- ==== Sys2Proof/Safety.lean ====
section
/-! DEFINITION. What claims are stated in terms of: the invariant of every command boundary, the readiness of a decode step, and
the postconditions of one pixel encoded, one pixel decoded and one command that fails or is ignored. -/
namespace Sys2Proof.Machine

/-- The state a result continues with, if it is a next state. -/
def nextState : Result → Option State
  | .next t => some t
  | .fault _ => none
  | .refused _ => none

/-- What holds at every command boundary of every run. -/
structure State.Inv (s : State) : Prop where
  /-- IN holds exactly the offsets below LEN, in order (R33, R35). -/
  inputDomain : s.input.map Prod.fst = List.range s.len.toNat
  /-- OUT holds exactly the offsets below OUTLEN, in order (R33, R36). -/
  outDomain : s.out.map Prod.fst = List.range s.outLen.toNat
  /-- POS never exceeds LEN (R21). -/
  posLe : s.pos.toNat ≤ s.len.toNat
  /-- RUN is in [0, 61] (R18). -/
  runLe : s.run.toNat ≤ 61
  /-- DRUN is in [0, 61] (R19). -/
  drunLe : s.drun.toNat ≤ 61
  /-- A run is open only while encoding (R94). -/
  runOnlyEnc : s.run ≠ 0 → s.mode = .enc
  /-- Repetitions are owed only while decoding (R113). -/
  drunOnlyDec : s.drun ≠ 0 → s.mode = .dec
  /-- Pixels are owed exactly in ENC and DEC (R20, R24). -/
  countBusy : s.count ≠ 0 ↔ s.mode = .enc ∨ s.mode = .dec
  /-- Every slot holds the cleared value or a pixel whose hash is the slot (R83). -/
  cacheHome : ∀ i : Slot, s.cache.lookup i = clearPixel ∨ hash (s.cache.lookup i) = i
  /-- In channel-3 mode PREV's alpha never leaves 255 (R87). -/
  opaqueAlpha : s.mode = .enc ∨ s.mode = .encDone → s.chan4 = false → s.prev.a = 255#8

/-- A pass is encoding and no error is held: ENC_PIXEL passes its guards (R88). -/
structure State.Encoding (s : State) : Prop where
  err : s.err = .none
  mode : s.mode = .enc

/-- A pass is decoding, no error is held and no repetition is owed: DEC_STEP reads the chunk at POS (R104). -/
structure State.Decoding (s : State) : Prop where
  err : s.err = .none
  mode : s.mode = .dec
  drun : s.drun = 0

/-- One pixel `p` encoded with the bytes `bytes` emitted and a run of `run` left open: every field of the state after it
(R88, R128), and the frame: what is not named in R43 keeps its value, and every byte of OUT but the appended ones. -/
structure Encoded (s t : State) (p : Pixel) (bytes : List Byte) (run : BitVec 6) : Prop where
  cache : ∀ i : Slot, t.cache.lookup i = if i = hash p then p else s.cache.lookup i
  prev : t.prev = p
  run : t.run = run
  count : t.count = s.count - 1
  mode : t.mode = if s.count = 1 then .encDone else .enc
  outLen : t.outLen.toNat = s.outLen.toNat + bytes.length
  appended : ∀ k < bytes.length, t.out.read (s.outLen.toNat + k) = bytes[k]?
  outFrame : ∀ a, a < s.outLen.toNat ∨ s.outLen.toNat + bytes.length ≤ a → t.out.read a = s.out.read a
  response : t.response = some ⟨statusByte t.mode .none, bytes, none⟩
  err : t.err = .none
  chan4 : t.chan4 = s.chan4
  drun : t.drun = s.drun
  pos : t.pos = s.pos
  len : t.len = s.len
  input : t.input = s.input
  port : t.port = s.port

/-- One pixel `px` decoded from a chunk of `n` bytes (0 for a repetition) with `owed` repetitions left: every field of the state
after it (R104, R113), and the frame. -/
structure Decoded (s t : State) (n : Nat) (px : Pixel) (owed : BitVec 6) : Prop where
  cache : ∀ i : Slot, t.cache.lookup i = if i = hash px then px else s.cache.lookup i
  prev : t.prev = px
  pos : t.pos.toNat = s.pos.toNat + n
  count : t.count = s.count - 1
  mode : t.mode = if s.count = 1 then .decDone else .dec
  drun : t.drun = if s.count = 1 then 0 else owed
  response : t.response = some ⟨statusByte t.mode .none, [], some px.toWord⟩
  err : t.err = .none
  chan4 : t.chan4 = s.chan4
  run : t.run = s.run
  len : t.len = s.len
  input : t.input = s.input
  out : t.out = s.out
  outLen : t.outLen = s.outLen
  port : t.port = s.port

/-- A command that fails with `e`, or is ignored while `e` is held (R128, R129): nothing changes but ERR, which is `e`, and the
response, which is `(STATUS, [], absent)`. -/
structure Failed (s t : State) (e : Err) : Prop where
  err : t.err = e
  response : t.response = some ⟨statusByte s.mode e, [], none⟩
  mode : t.mode = s.mode
  chan4 : t.chan4 = s.chan4
  prev : t.prev = s.prev
  run : t.run = s.run
  drun : t.drun = s.drun
  count : t.count = s.count
  pos : t.pos = s.pos
  len : t.len = s.len
  cache : t.cache = s.cache
  input : t.input = s.input
  out : t.out = s.out
  outLen : t.outLen = s.outLen
  port : t.port = s.port

/-- The flush byte of an open run, `0xC0 | (RUN - 1)` (R92, R93). -/
def flushByte (run : Nat) : Byte := 0xC0#8 ||| BitVec.ofNat 8 (run - 1)

/-- The open run flushed before a differing pixel, as bytes (R93). -/
def flushBytes (run : BitVec 6) : List Byte := if run = 0 then [] else [flushByte run.toNat]

end Sys2Proof.Machine
end

