-- ==== Sys2Proof/Certificates/Slice0/Obligations.lean ====
section
/-! DEFINITION. The statements for the provers. Each docstring names the rules of spec/ it formalises. -/

open Sys2Proof Sys2Proof.Machine

/-! ### Encodings -/

/-- Words written out from the encodings of R55 to R60 and R71 (95_test_vectors.md) decode to their instructions. -/
def Obligations.SampleWordsDecode : Prop :=
  decodeChunk [0b00001001#8] = .ok (.index 9, []) ∧
  decodeChunk [0b01110110#8] = .ok (.diff 1 (-1) 0, []) ∧
  decodeChunk [0b10100000#8, 0b10101000#8] = .ok (.luma 0 2 0, []) ∧
  decodeChunk [0b11000101#8] = .ok (.run 6, []) ∧
  decodeChunk [0xFE#8, 0x0A#8, 0x14#8, 0x1E#8] = .ok (.rgb 10 20 30, []) ∧
  decodeChunk [0xFF#8, 0x01#8, 0x02#8, 0x03#8, 0x04#8] = .ok (.rgba 1 2 3 4, []) ∧
  decodeCommand ⟨0b00010001#8, 0, 6, []⟩ = .ok (.encStart true 6) ∧
  decodeCommand ⟨0b00000010#8, 0xC86432FF#32, 0, []⟩ = .ok (.encPixel (pix 200 100 50 255)) ∧
  decodeCommand ⟨0b00000011#8, 0, 1, [0xC0#8]⟩ = .ok (.decStart 1 [0xC0#8]) ∧
  decodeCommand ⟨0b00000100#8, 0, 0, []⟩ = .ok .decStep

/-- Decoding the bytes of a well-formed chunk gives the chunk back and leaves the bytes after it (R54 to R60, R63, R65). -/
def Obligations.ChunkDecodeInvertsEncode : Prop :=
  ∀ (c : Chunk) (rest : List Byte), c.wf = true → decodeChunk (encodeChunk c ++ rest) = .ok (c, rest)

/-- Every byte sequence that decodes is the encoding of the well-formed chunk it decodes to, followed by the rest: each chunk has
one encoding and no bit of a byte is dropped (R55 to R62). -/
def Obligations.ChunkEncodeInvertsDecode : Prop :=
  ∀ (bytes : List Byte) (c : Chunk) (rest : List Byte),
    decodeChunk bytes = .ok (c, rest) → c.wf = true ∧ encodeChunk c ++ rest = bytes

/-- Every instruction that is no chunk has a command, with every operand at every value, and the command decodes to it
(R70, R71). -/
def Obligations.CommandDecodeInvertsEncode : Prop :=
  ∀ i : Instr, (∀ c : Chunk, i ≠ c.toInstr) → ∃ cmd, encodeCommand i = some cmd ∧ decodeCommand cmd = .ok i

/-- R62 with R63: what each first byte means, the fields read by number. -/
def Obligations.FirstByteMap : Prop :=
  ∀ (b0 : Byte) (rest : List Byte),
    (b0.toNat ≤ 0x3F → decodeChunk (b0 :: rest) = .ok (.index (BitVec.ofNat 6 b0.toNat), rest)) ∧
    (0x40 ≤ b0.toNat ∧ b0.toNat ≤ 0x7F → decodeChunk (b0 :: rest) =
      .ok (.diff ((b0.toNat / 16 % 4 : Nat) - 2) ((b0.toNat / 4 % 4 : Nat) - 2) ((b0.toNat % 4 : Nat) - 2), rest)) ∧
    (0x80 ≤ b0.toNat ∧ b0.toNat ≤ 0xBF → ∀ b1 : Byte, decodeChunk (b0 :: b1 :: rest) =
      .ok (.luma ((b0.toNat % 64 : Nat) - 32) ((b1.toNat / 16 : Nat) - 8) ((b1.toNat % 16 : Nat) - 8), rest)) ∧
    (0xC0 ≤ b0.toNat ∧ b0.toNat ≤ 0xFD → decodeChunk (b0 :: rest) = .ok (.run (b0.toNat % 64 + 1), rest)) ∧
    (b0.toNat = 0xFE → ∀ r g b : Byte, decodeChunk (b0 :: r :: g :: b :: rest) = .ok (.rgb r g b, rest)) ∧
    (b0.toNat = 0xFF → ∀ r g b a : Byte, decodeChunk (b0 :: r :: g :: b :: a :: rest) = .ok (.rgba r g b a, rest))

/-- R54 and R67: a chunk's length is a function of its first byte, and the only decoding failure is running out of bytes, the
empty sequence included. -/
def Obligations.OnlyMissingBytesFailToDecode : Prop :=
  decodeChunk [] = .error .outOfBytes ∧
  ∀ (b0 : Byte) (rest : List Byte),
    chunkLength b0 = (if b0.toNat = 0xFE then 4 else if b0.toNat = 0xFF then 5
      else if 0x80 ≤ b0.toNat ∧ b0.toNat ≤ 0xBF then 2 else 1) ∧
    (chunkLength b0 ≤ (b0 :: rest).length →
      ∃ c, decodeChunk (b0 :: rest) = .ok (c, (b0 :: rest).drop (chunkLength b0))) ∧
    ((b0 :: rest).length < chunkLength b0 → decodeChunk (b0 :: rest) = .error .outOfBytes)

/-- R71: the five command bytes and what each reads from the operand ports; every other byte is no command (R72). -/
def Obligations.LegalCommandBytes : Prop :=
  ∀ c : Command,
    (c.cmd = 0x01#8 → decodeCommand c = .ok (.encStart false c.n)) ∧
    (c.cmd = 0x11#8 → decodeCommand c = .ok (.encStart true c.n)) ∧
    (c.cmd = 0x02#8 → ∃ p : Pixel, decodeCommand c = .ok (.encPixel p) ∧
      p.r.toNat = c.pixel.toNat / 2 ^ 24 ∧ p.g.toNat = c.pixel.toNat / 2 ^ 16 % 256 ∧
      p.b.toNat = c.pixel.toNat / 2 ^ 8 % 256 ∧ p.a.toNat = c.pixel.toNat % 256) ∧
    (c.cmd = 0x03#8 → decodeCommand c = .ok (.decStart c.n c.input)) ∧
    (c.cmd = 0x04#8 → decodeCommand c = .ok .decStep) ∧
    (c.cmd ∉ [0x01#8, 0x11#8, 0x02#8, 0x03#8, 0x04#8] → ∃ e, decodeCommand c = .error e)

/-! ### The colour cache -/

/-- R76 and R77: the hash is the exact sum modulo 64, and depends only on each channel modulo 64. -/
def Obligations.HashIsLinearModulo64 : Prop :=
  ∀ p : Pixel,
    (hash p).toNat = (p.r.toNat * 3 + p.g.toNat * 5 + p.b.toNat * 7 + p.a.toNat * 11) % 64 ∧
    (hash p).toNat =
      (3 * (p.r.toNat % 64) + 5 * (p.g.toNat % 64) + 7 * (p.b.toNat % 64) + 11 * (p.a.toNat % 64)) % 64

/-- R80: an update writes the pixel into the slot of its hash, whatever the slot held, and no other slot. -/
def Obligations.CacheUpdateWritesOneSlot : Prop :=
  ∀ (c : Cache) (p : Pixel),
    (c.update p).lookup (hash p) = p ∧ ∀ i : Slot, i ≠ hash p → (c.update p).lookup i = c.lookup i

/-! ### Reset and stepping -/

/-- R32: the value of every piece of state after reset. -/
def Obligations.ResetState : Prop :=
  State.reset.mode = .idle ∧ State.reset.err = .none ∧ State.reset.chan4 = false ∧
  State.reset.prev = pix 0 0 0 255 ∧ State.reset.run = 0 ∧ State.reset.drun = 0 ∧ State.reset.count = 0 ∧
  State.reset.pos = 0 ∧ State.reset.len = 0 ∧ (∀ i : Slot, State.reset.cache.lookup i = pix 0 0 0 0) ∧
  (∀ a, State.reset.input.read a = none) ∧ State.reset.outLen = 0

/-- Reset puts every piece of state at its reset value, from any state; a command issued with it is not performed and has
no response (R141). That the inputs still to come stay, and that no response is held even where no command stands beside reset, is
the model's choice for its own fields (log entry 3). -/
def Obligations.ResetInputWins : Prop :=
  ∀ (s : State) (c : Option Command) (rest : List PortInput), s.port = ⟨true, c⟩ :: rest →
    step s = .next { State.reset with port := rest }

/-- R140, R142: with no reset and no command the engine holds its state; only the model's own input list moves on (log
entry 3). -/
def Obligations.NoCommandHoldsState : Prop :=
  ∀ (s : State) (rest : List PortInput),
    (s.port = [] → step s = .next s) ∧
    (s.port = ⟨false, none⟩ :: rest → step s = .next { s with port := rest })

/-- A step performs the instruction its command decodes to, at the state with that input taken off the port (R44, R71). -/
def Obligations.StepPerformsDecodedCommand : Prop :=
  ∀ (s : State) (c : Command) (rest : List PortInput) (i : Instr),
    s.port = ⟨false, some c⟩ :: rest → decodeCommand c = .ok i → step s = exec i { s with port := rest }

/-- The bytes at POS run: where a whole chunk stands inside IN at POS, a step with DEC_STEP on the port is exec of that chunk
(R104; that a chunk by itself is the DEC_STEP that finds it is log entry 7). -/
def Obligations.DecStepPerformsChunkAtPos : Prop :=
  ∀ (s : State) (c : Command) (rest : List PortInput) (bytes : List Byte) (ch : Chunk),
    s.port = ⟨false, some c⟩ :: rest → c.cmd = 0x04#8 →
    s.input.readBytes s.pos.toNat bytes.length = some bytes → decodeChunk bytes = .ok (ch, []) →
    s.pos.toNat + bytes.length ≤ s.len.toNat →
    step s = exec ch.toInstr { s with port := rest }

/-- R72 (and R129 where an error is held): an illegal command byte raises CommandError and changes no other state. -/
def Obligations.IllegalCommandByteRaisesCommandError : Prop :=
  ∀ (s : State) (c : Command) (rest : List PortInput),
    s.port = ⟨false, some c⟩ :: rest → c.cmd ∉ [0x01#8, 0x11#8, 0x02#8, 0x03#8, 0x04#8] →
    ∃ t, step s = .next t ∧ Failed { s with port := rest } t (if s.err = .none then .command else s.err)

/-! ### Starting a pass -/

/-- R86: ENC_START, from every state. -/
def Obligations.EncStartInitialises : Prop :=
  ∀ (c : Bool) (n : Count) (s : State), ∃ t, exec (.encStart c n) s = .next t ∧
    (∀ i : Slot, t.cache.lookup i = pix 0 0 0 0) ∧ t.prev = pix 0 0 0 255 ∧ t.run = 0 ∧ t.drun = 0 ∧
    t.pos = 0 ∧ t.len = 0 ∧ (∀ a, t.input.read a = none) ∧ (∀ a, t.out.read a = none) ∧ t.outLen = 0 ∧
    t.chan4 = c ∧ t.count = n ∧ t.port = s.port ∧
    t.mode = (if n = 0 then .idle else .enc) ∧ t.err = (if n = 0 then .validation else .none) ∧
    t.response = some ⟨statusByte t.mode t.err, [], none⟩

/-- R103: DEC_START, from every state, for every input whose length LEN can hold (R22). -/
def Obligations.DecStartInitialises : Prop :=
  ∀ (n : Count) (bytes : List Byte) (s : State), bytes.length < 2 ^ 64 → ∃ t, exec (.decStart n bytes) s = .next t ∧
    (∀ i : Slot, t.cache.lookup i = pix 0 0 0 0) ∧ t.prev = pix 0 0 0 255 ∧ t.run = 0 ∧ t.drun = 0 ∧
    t.pos = 0 ∧ t.len.toNat = bytes.length ∧ (∀ a, t.input.read a = bytes[a]?) ∧ (∀ a, t.out.read a = none) ∧
    t.outLen = 0 ∧ t.chan4 = false ∧ t.count = n ∧ t.port = s.port ∧
    t.mode = (if n = 0 then .idle else .dec) ∧ t.err = (if n = 0 then .format else .none) ∧
    t.response = some ⟨statusByte t.mode t.err, [], none⟩

/-- The model's choice (log entry 5): an input of 2^64 bytes or more, which LEN cannot hold, is refused by name. -/
def Obligations.DecStartRefusesUnholdableInput : Prop :=
  ∀ (n : Count) (bytes : List Byte) (s : State), 2 ^ 64 ≤ bytes.length →
    exec (.decStart n bytes) s = .refused .inputTooLong

/-- R143: a START clears what reset clears, and what it leaves does not depend on what came before it. -/
def Obligations.StartForgetsThePast : Prop :=
  (∀ (c : Bool) (n : Count) (s s' : State),
    exec (.encStart c n) s' = exec (.encStart c n) { s with port := s'.port }) ∧
  (∀ (n : Count) (bytes : List Byte) (s s' : State),
    exec (.decStart n bytes) s' = exec (.decStart n bytes) { s with port := s'.port }) ∧
  (∀ (i : Instr) (s t : State),
    ((∃ c n, i = .encStart c n) ∨ ∃ n bytes, i = .decStart n bytes) → exec i s = .next t →
    t.cache = State.reset.cache ∧ t.prev = State.reset.prev ∧ t.run = State.reset.run ∧
    t.drun = State.reset.drun ∧ t.pos = State.reset.pos ∧ t.out = State.reset.out ∧ t.outLen = State.reset.outLen)

/-! ### Errors and modes -/

/-- R129: a held error. ENC_PIXEL, DEC_STEP and an illegal byte have no effect and respond with the first error, and a step that
changes ERR takes a reset or a START. The same of a chunk taken by itself is the model's reading (DEDUCED, log entry 7). -/
def Obligations.HeldErrorIsSticky : Prop :=
  ∀ s : State, s.err ≠ .none →
    (∀ p : Pixel, ∃ t, exec (.encPixel p) s = .next t ∧ Failed s t s.err) ∧
    (∃ t, exec .decStep s = .next t ∧ Failed s t s.err) ∧
    (∀ c : Chunk, ∃ t, exec c.toInstr s = .next t ∧ Failed s t s.err) ∧
    (∀ (c : Command) (rest : List PortInput), s.port = ⟨false, some c⟩ :: rest →
      c.cmd ∉ [0x01#8, 0x11#8, 0x02#8, 0x03#8, 0x04#8] →
      ∃ t, step s = .next t ∧ Failed { s with port := rest } t s.err) ∧
    (∀ (x : PortInput) (rest : List PortInput) (t : State), s.port = x :: rest → step s = .next t →
      t.err ≠ s.err → x.reset = true ∨ ∃ c, x.command = some c ∧ c.cmd ∈ [0x01#8, 0x11#8, 0x03#8])

/-- R125: ValidationError by ENC_START with N = 0, and by ENC_PIXEL in ENC_DONE whatever the pixel. -/
def Obligations.ValidationErrorCauses : Prop :=
  (∀ (c : Bool) (s : State), ∃ t, exec (.encStart c 0) s = .next t ∧ t.err = .validation ∧ t.mode = .idle ∧
    t.count = 0) ∧
  (∀ (p : Pixel) (s : State), s.err = .none → s.mode = .encDone →
    ∃ t, exec (.encPixel p) s = .next t ∧ Failed s t .validation) ∧
  (∀ (p : Pixel) (s t : State), s.err = .none → exec (.encPixel p) s = .next t → t.err = .validation →
    s.mode = .encDone)

/-- R127: CommandError by an illegal command byte, by ENC_PIXEL in IDLE, DEC or DEC_DONE, and by DEC_STEP in IDLE, ENC,
ENC_DONE or DEC_DONE. The same of a chunk taken by itself is the model's reading (DEDUCED, log entry 7). -/
def Obligations.CommandErrorCauses : Prop :=
  ∀ s : State, s.err = .none →
    (∀ (c : Command) (rest : List PortInput), s.port = ⟨false, some c⟩ :: rest →
      c.cmd ∉ [0x01#8, 0x11#8, 0x02#8, 0x03#8, 0x04#8] →
      ∃ t, step s = .next t ∧ Failed { s with port := rest } t .command) ∧
    (∀ p : Pixel, s.mode = .idle ∨ s.mode = .dec ∨ s.mode = .decDone →
      ∃ t, exec (.encPixel p) s = .next t ∧ Failed s t .command) ∧
    (s.mode ≠ .dec → ∃ t, exec .decStep s = .next t ∧ Failed s t .command) ∧
    (∀ c : Chunk, s.mode ≠ .dec → ∃ t, exec c.toInstr s = .next t ∧ Failed s t .command)

/-- R112, R126: a chunk not wholly inside IN is a FormatError and nothing else changes: POS keeps its offset, no slot is
written, no pixel is returned. -/
def Obligations.TruncatedChunkRaisesFormatError : Prop :=
  ∀ s : State, s.Decoding →
    (s.len.toNat < s.pos.toNat + 1 → ∃ t, exec .decStep s = .next t ∧ Failed s t .format) ∧
    (∀ b0 : Byte, s.input.read s.pos.toNat = some b0 →
      s.len.toNat < s.pos.toNat + (if b0.toNat = 0xFE then 4 else if b0.toNat = 0xFF then 5
        else if 0x80 ≤ b0.toNat ∧ b0.toNat ≤ 0xBF then 2 else 1) →
      ∃ t, exec .decStep s = .next t ∧ Failed s t .format)

/-- R112, R114: DEC_STEP reads no byte at or beyond LEN and none beyond the chunk at POS: with another IN that agrees on the
bytes below both, it answers the same but for IN. -/
def Obligations.DecStepReadsOnlyItsChunk : Prop :=
  ∀ (s : State) (other : Memory),
    (∀ a, s.pos.toNat ≤ a → a < s.len.toNat →
      (∀ b0, s.input.read s.pos.toNat = some b0 → a < s.pos.toNat + chunkLength b0) →
      other.read a = s.input.read a) →
    ∀ t, exec .decStep s = .next t → exec .decStep { s with input := other } = .next { t with input := other }

/-- R135: the mode machine, one clause per row of its table. -/
def Obligations.ModeTransitions : Prop :=
  (∀ (s t : State) (x : PortInput) (rest : List PortInput), s.port = x :: rest → x.reset = true →
    step s = .next t → t.mode = .idle) ∧
  (∀ (i : Instr) (s t : State), s.err = .none → exec i s = .next t →
    (∀ c n, i = .encStart c n → (n = 0 → t.mode = .idle ∧ t.err = .validation) ∧
      (n ≠ 0 → t.mode = .enc ∧ t.err = .none)) ∧
    (∀ n bytes, i = .decStart n bytes → (n = 0 → t.mode = .idle ∧ t.err = .format) ∧
      (n ≠ 0 → t.mode = .dec ∧ t.err = .none)) ∧
    (∀ p, i = .encPixel p →
      (s.mode = .enc → t.err = .none ∧ t.mode = if s.count = 1 then .encDone else .enc) ∧
      (s.mode = .encDone → t.mode = .encDone ∧ t.err = .validation) ∧
      (s.mode = .idle ∨ s.mode = .dec ∨ s.mode = .decDone → t.mode = s.mode ∧ t.err = .command)) ∧
    (i = .decStep →
      (s.mode = .dec →
        ((s.drun ≠ 0 ∨ ∃ b0, s.input.read s.pos.toNat = some b0 ∧ s.pos.toNat + chunkLength b0 ≤ s.len.toNat) →
          t.err = .none ∧ t.mode = if s.count = 1 then .decDone else .dec) ∧
        (¬ (s.drun ≠ 0 ∨ ∃ b0, s.input.read s.pos.toNat = some b0 ∧ s.pos.toNat + chunkLength b0 ≤ s.len.toNat) →
          t.mode = .dec ∧ t.err = .format)) ∧
      (s.mode ≠ .dec → t.mode = s.mode ∧ t.err = .command)))

/-- R27, R73: every command that answers a next state has a response. STATUS is MODE in bits 2:0 and ERR in bits 4:3, read after
the command; BYTES is what ENC_PIXEL appended to OUT, at most 6 bytes, and is empty for every other command and every failed one;
PIXEL is the pixel a successful DEC_STEP produced, and is absent otherwise. The same of a chunk taken by itself, under a held error
or in a wrong mode too, is the model's reading (DEDUCED, log entry 7). -/
def Obligations.ResponseReportsOutcome : Prop :=
  ∀ (i : Instr) (s t : State), exec i s = .next t → ∃ r, t.response = some r ∧
    r.status.toNat =
      (match t.mode with | .idle => 0 | .enc => 1 | .encDone => 2 | .dec => 3 | .decDone => 4) +
      8 * (match t.err with | .none => 0 | .validation => 1 | .format => 2 | .command => 3) ∧
    ((∀ p, i ≠ .encPixel p) → r.bytes = []) ∧
    (t.err ≠ .none → r.bytes = [] ∧ r.pixel = none) ∧
    (∀ p, i = .encPixel p → r.bytes.length ≤ 6 ∧ r.pixel = none ∧ t.outLen.toNat = s.outLen.toNat + r.bytes.length ∧
      ∀ k < r.bytes.length, t.out.read (s.outLen.toNat + k) = r.bytes[k]?) ∧
    (i = .decStep ∨ (∃ c : Chunk, i = c.toInstr) → t.err = .none → r.pixel = some t.prev.toWord) ∧
    ((∃ c n, i = .encStart c n) ∨ (∃ n bytes, i = .decStart n bytes) → r.pixel = none)

/-! ### The encoder

The premise `s.hasRoom n` says that OUT's 64-bit OUTLEN can count the n bytes the pixel emits (R33); what happens where it cannot is
`FullOutputStopsEncPixel` (log entry 4). -/

/-- R87: in channel-3 mode the pixel encoded is the input pixel with alpha 255, and no RGBA chunk is ever emitted; in channel-4
mode the pixel is used as given (so PREV becomes it). -/
def Obligations.ChannelModeForcesAlpha : Prop :=
  ∀ (p : Pixel) (s : State),
    (s.chan4 = false → exec (.encPixel p) s = exec (.encPixel ⟨p.r, p.g, p.b, 255#8⟩) s) ∧
    (s.Encoding → s.hasRoom (pixelBytes (effectivePixel s.chan4 p) s).length →
      ∃ t, exec (.encPixel p) s = .next t ∧ t.prev = if s.chan4 then p else ⟨p.r, p.g, p.b, 255#8⟩) ∧
    (s.Encoding → s.Inv → s.chan4 = false → ∀ t r, exec (.encPixel p) s = .next t → t.response = some r →
      (r.bytes.drop (flushBytes s.run).length).head? ≠ some 0xFF#8)

/-- R92, one pixel: a pixel equal to PREV extends the open run; the run is flushed as `0xC0 | (RUN - 1)` when it reaches 62 or
the pixel is the image's last, and otherwise nothing is emitted. -/
def Obligations.EqualPixelExtendsRun : Prop :=
  ∀ (q : Pixel) (s : State), s.Encoding → s.run.toNat ≤ 61 → effectivePixel s.chan4 q = s.prev →
    (s.run.toNat + 1 = 62 ∨ s.count = 1 → s.hasRoom 1 →
      ∃ t, exec (.encPixel q) s = .next t ∧ Encoded s t s.prev [flushByte (s.run.toNat + 1)] 0) ∧
    (s.run.toNat + 1 ≠ 62 → s.count ≠ 1 →
      ∃ t, exec (.encPixel q) s = .next t ∧ Encoded s t s.prev [] (s.run + 1))

/-- R95 with R93: a differing pixel that its slot holds is emitted as the one byte `hash(p)`, after the flush of an open run. -/
def Obligations.CachedPixelEmitsIndex : Prop :=
  ∀ (q p : Pixel) (s : State), s.Encoding → p = effectivePixel s.chan4 q → p ≠ s.prev → s.cache.lookup (hash p) = p →
    s.hasRoom ((flushBytes s.run).length + 1) →
    ∃ t, exec (.encPixel q) s = .next t ∧
      Encoded s t p (flushBytes s.run ++ [BitVec.ofNat 8 (hash p).toNat]) 0

/-- R96 with R93: alpha unchanged and every delta in [-2, 1] gives the one byte
`0x40 | (dr+2) << 4 | (dg+2) << 2 | (db+2)`. -/
def Obligations.SmallDeltaEmitsDiff : Prop :=
  ∀ (q p : Pixel) (s : State) (dr dg db : Int), s.Encoding → p = effectivePixel s.chan4 q → p ≠ s.prev →
    s.cache.lookup (hash p) ≠ p → p.a = s.prev.a →
    dr = delta p.r s.prev.r → dg = delta p.g s.prev.g → db = delta p.b s.prev.b →
    (-2 ≤ dr ∧ dr ≤ 1 ∧ -2 ≤ dg ∧ dg ≤ 1 ∧ -2 ≤ db ∧ db ≤ 1) →
    s.hasRoom ((flushBytes s.run).length + 1) →
    ∃ t, exec (.encPixel q) s = .next t ∧
      Encoded s t p (flushBytes s.run ++
        [0x40#8 ||| BitVec.ofInt 8 (dr + 2) <<< 4 ||| BitVec.ofInt 8 (dg + 2) <<< 2 ||| BitVec.ofInt 8 (db + 2)]) 0

/-- R97 with R93: alpha unchanged, DIFF's condition false and LUMA's true gives the two bytes `0x80 | (dg + 32)` and
`(dr - dg + 8) << 4 | (db - dg + 8)`. -/
def Obligations.MediumDeltaEmitsLuma : Prop :=
  ∀ (q p : Pixel) (s : State) (dr dg db : Int), s.Encoding → p = effectivePixel s.chan4 q → p ≠ s.prev →
    s.cache.lookup (hash p) ≠ p → p.a = s.prev.a →
    dr = delta p.r s.prev.r → dg = delta p.g s.prev.g → db = delta p.b s.prev.b →
    ¬ (-2 ≤ dr ∧ dr ≤ 1 ∧ -2 ≤ dg ∧ dg ≤ 1 ∧ -2 ≤ db ∧ db ≤ 1) →
    (-32 ≤ dg ∧ dg ≤ 31 ∧ -8 ≤ dr - dg ∧ dr - dg ≤ 7 ∧ -8 ≤ db - dg ∧ db - dg ≤ 7) →
    s.hasRoom ((flushBytes s.run).length + 2) →
    ∃ t, exec (.encPixel q) s = .next t ∧
      Encoded s t p (flushBytes s.run ++
        [0x80#8 ||| BitVec.ofInt 8 (dg + 32),
          BitVec.ofInt 8 (dr - dg + 8) <<< 4 ||| BitVec.ofInt 8 (db - dg + 8)]) 0

/-- R98 with R93: a changed alpha on a cache miss gives the five bytes `FF r g b a`. -/
def Obligations.ChangedAlphaEmitsRgba : Prop :=
  ∀ (q p : Pixel) (s : State), s.Encoding → p = effectivePixel s.chan4 q → p ≠ s.prev →
    s.cache.lookup (hash p) ≠ p → p.a ≠ s.prev.a → s.hasRoom ((flushBytes s.run).length + 5) →
    ∃ t, exec (.encPixel q) s = .next t ∧
      Encoded s t p (flushBytes s.run ++ [0xFF#8, p.r, p.g, p.b, p.a]) 0

/-- R99 with R93: alpha unchanged on a cache miss with neither DIFF's nor LUMA's condition gives the four bytes `FE r g b`. -/
def Obligations.LargeDeltaEmitsRgb : Prop :=
  ∀ (q p : Pixel) (s : State) (dr dg db : Int), s.Encoding → p = effectivePixel s.chan4 q → p ≠ s.prev →
    s.cache.lookup (hash p) ≠ p → p.a = s.prev.a →
    dr = delta p.r s.prev.r → dg = delta p.g s.prev.g → db = delta p.b s.prev.b →
    ¬ (-2 ≤ dr ∧ dr ≤ 1 ∧ -2 ≤ dg ∧ dg ≤ 1 ∧ -2 ≤ db ∧ db ≤ 1) →
    ¬ (-32 ≤ dg ∧ dg ≤ 31 ∧ -8 ≤ dr - dg ∧ dr - dg ≤ 7 ∧ -8 ≤ db - dg ∧ db - dg ≤ 7) →
    s.hasRoom ((flushBytes s.run).length + 4) →
    ∃ t, exec (.encPixel q) s = .next t ∧
      Encoded s t p (flushBytes s.run ++ [0xFE#8, p.r, p.g, p.b]) 0

/-- R101: every pixel in MODE ENC is encoded, without error, and counted, as long as OUT has an offset for its bytes (R33). -/
def Obligations.EveryPixelIsEncoded : Prop :=
  ∀ (q : Pixel) (s : State), s.Encoding → s.hasRoom (pixelBytes (effectivePixel s.chan4 q) s).length →
    ∃ t run, exec (.encPixel q) s = .next t ∧
      Encoded s t (effectivePixel s.chan4 q) (pixelBytes (effectivePixel s.chan4 q) s) run

/-- R100: the number of bytes one ENC_PIXEL emits. -/
def Obligations.EmittedByteCount : Prop :=
  ∀ (q p : Pixel) (s t : State) (r : Response), s.Encoding → p = effectivePixel s.chan4 q →
    exec (.encPixel q) s = .next t → t.response = some r →
    t.outLen.toNat = s.outLen.toNat + r.bytes.length ∧
    (p = s.prev → r.bytes.length ≤ 1) ∧
    (p ≠ s.prev → r.bytes.length = (if s.run = 0 then 0 else 1) +
      match selectChunk s.cache s.prev p with
      | .index _ => 1
      | .diff _ _ _ => 1
      | .luma _ _ _ => 2
      | .rgb _ _ _ => 4
      | .rgba _ _ _ _ => 5
      | .run _ => 0) ∧
    r.bytes.length ≤ 6 ∧
    (r.bytes.length = 6 ↔ s.run ≠ 0 ∧ p ≠ s.prev ∧ s.cache.lookup (hash p) ≠ p ∧ p.a ≠ s.prev.a)

/-- R102: a pixel whose alpha differs from PREV's is emitted as INDEX when it is in the cache and as RGBA otherwise. -/
def Obligations.AlphaChangeIsIndexOrRgba : Prop :=
  ∀ (q p : Pixel) (s : State), s.Encoding → p = effectivePixel s.chan4 q → p.a ≠ s.prev.a →
    s.hasRoom ((flushBytes s.run).length + if s.cache.lookup (hash p) = p then 1 else 5) →
    ∃ t, exec (.encPixel q) s = .next t ∧
      t.response = some ⟨statusByte t.mode .none, flushBytes s.run ++
        (if s.cache.lookup (hash p) = p then [BitVec.ofNat 8 (hash p).toNat]
          else [0xFF#8, p.r, p.g, p.b, p.a]), none⟩

/-- R89: the selector takes the first guard of the source's order that holds (RUN, taken when the pixel equals PREV, aside),
although R88 tests the alpha before DIFF and LUMA. -/
def Obligations.SelectorFollowsPriorityOrder : Prop :=
  ∀ (c : Cache) (prev p : Pixel) (dr dg db : Int),
    dr = delta p.r prev.r → dg = delta p.g prev.g → db = delta p.b prev.b →
    selectChunk c prev p =
      if c.lookup (hash p) = p then .index (hash p)
      else if p.a = prev.a ∧ -2 ≤ dr ∧ dr ≤ 1 ∧ -2 ≤ dg ∧ dg ≤ 1 ∧ -2 ≤ db ∧ db ≤ 1 then .diff dr dg db
      else if p.a = prev.a ∧ -32 ≤ dg ∧ dg ≤ 31 ∧ -8 ≤ dr - dg ∧ dr - dg ≤ 7 ∧ -8 ≤ db - dg ∧ db - dg ≤ 7 then
        .luma dg (dr - dg) (db - dg)
      else if p.a ≠ prev.a then .rgba p.r p.g p.b p.a
      else .rgb p.r p.g p.b

/-- R94: the image's last pixel leaves no run open and ends the pass. -/
def Obligations.LastPixelLeavesNoRun : Prop :=
  ∀ (q : Pixel) (s : State), s.Encoding → s.count = 1 → s.hasRoom (pixelBytes (effectivePixel s.chan4 q) s).length →
    ∃ t, exec (.encPixel q) s = .next t ∧ t.mode = .encDone ∧ t.run = 0 ∧ t.count = 0

/-- R90 and R91: a delta is the difference modulo 256 read in [-128, 127]; the LUMA guard is the same if its sub-deltas are
wrapped again. -/
def Obligations.DeltasWrapSigned : Prop :=
  (∀ x y : Byte, -128 ≤ delta x y ∧ delta x y ≤ 127 ∧ (delta x y - ((x.toNat : Int) - y.toNat)) % 256 = 0) ∧
  (∀ dr dg db : Int, -128 ≤ dr → dr ≤ 127 → -128 ≤ db → db ≤ 127 →
    (lumaFits dr dg db = true ↔
      -32 ≤ dg ∧ dg ≤ 31 ∧ -8 ≤ s8 (dr - dg) ∧ s8 (dr - dg) ≤ 7 ∧ -8 ≤ s8 (db - dg) ∧ s8 (db - dg) ≤ 7))

/-- R92 and R75: n pixels equal to PREV, none of a run open before them and the last of them the image's last, are emitted as
`RUNS n`. -/
def Obligations.EqualPixelsEmitRuns : Prop :=
  ∀ (n : Nat) (q : Pixel) (s : State), 0 < n → n < 2 ^ 64 → s.Encoding → s.run = 0 →
    s.count = BitVec.ofNat 64 n → effectivePixel s.chan4 q = s.prev → s.hasRoom (runsChunks n).length →
    ∃ t, encodePixels (List.replicate n q) s = .ok ((runsChunks n).flatMap encodeChunk, t) ∧
      t.mode = .encDone ∧ t.prev = s.prev

/-! ### The decoder -/

/-- R105: INDEX inside IN. That an INDEX taken by itself is a FormatError where it is not inside IN is R112 through the model's
reading of a chunk as the DEC_STEP that finds it (DEDUCED, log entry 7). -/
def Obligations.IndexDecodesSlot : Prop :=
  ∀ (i : Slot) (s : State), s.Decoding →
    (s.pos.toNat + 1 ≤ s.len.toNat → ∃ t, exec (.index i) s = .next t ∧ Decoded s t 1 (s.cache.lookup i) 0) ∧
    (s.len.toNat < s.pos.toNat + 1 → ∃ t, exec (.index i) s = .next t ∧ Failed s t .format)

/-- R106: DIFF inside IN, each channel's delta added modulo 256, alpha PREV's. That it is a FormatError by itself where it is not
inside IN is R112 through log entry 7 (DEDUCED); for deltas outside [-2, 1], which no byte encodes, the formula is the model's
choice (log entry 14). -/
def Obligations.DiffDecodesDeltas : Prop :=
  ∀ (dr dg db : Int) (s : State), s.Decoding →
    (s.pos.toNat + 1 ≤ s.len.toNat → ∃ t, exec (.diff dr dg db) s = .next t ∧
      Decoded s t 1
        ⟨s.prev.r + BitVec.ofInt 8 dr, s.prev.g + BitVec.ofInt 8 dg, s.prev.b + BitVec.ofInt 8 db, s.prev.a⟩ 0) ∧
    (s.len.toNat < s.pos.toNat + 1 → ∃ t, exec (.diff dr dg db) s = .next t ∧ Failed s t .format)

/-- R107: LUMA, `dr = dg + du`, `db = dg + dv`, each added modulo 256, alpha PREV's; FormatError where it is not inside IN.
For operands outside R57's ranges, which no bytes encode, the formula is the model's choice (log entry 14); that a LUMA by itself
is the DEC_STEP that finds it is log entry 7 (DEDUCED). -/
def Obligations.LumaDecodesDeltas : Prop :=
  ∀ (dg du dv : Int) (s : State), s.Decoding →
    (s.pos.toNat + 2 ≤ s.len.toNat → ∃ t, exec (.luma dg du dv) s = .next t ∧
      Decoded s t 2 ⟨s.prev.r + BitVec.ofInt 8 dg + BitVec.ofInt 8 du, s.prev.g + BitVec.ofInt 8 dg,
        s.prev.b + BitVec.ofInt 8 dg + BitVec.ofInt 8 dv, s.prev.a⟩ 0) ∧
    (s.len.toNat < s.pos.toNat + 2 → ∃ t, exec (.luma dg du dv) s = .next t ∧ Failed s t .format)

/-- R108: RUN, the first of its pixels; the others are owed (none where it is the image's last, R113). That it is a
FormatError by itself where it is not inside IN is R112 through log entry 7 (DEDUCED). -/
def Obligations.RunDecodesFirstPixel : Prop :=
  ∀ (len : Nat) (s : State), s.Decoding → 1 ≤ len → len ≤ 62 →
    (s.pos.toNat + 1 ≤ s.len.toNat →
      ∃ t, exec (.run len) s = .next t ∧ Decoded s t 1 s.prev (BitVec.ofNat 6 (len - 1))) ∧
    (s.len.toNat < s.pos.toNat + 1 → ∃ t, exec (.run len) s = .next t ∧ Failed s t .format)

/-- R109: RGB, alpha PREV's; FormatError where it is not inside IN. -/
def Obligations.RgbDecodesChannels : Prop :=
  ∀ (r g b : Byte) (s : State), s.Decoding →
    (s.pos.toNat + 4 ≤ s.len.toNat → ∃ t, exec (.rgb r g b) s = .next t ∧ Decoded s t 4 ⟨r, g, b, s.prev.a⟩ 0) ∧
    (s.len.toNat < s.pos.toNat + 4 → ∃ t, exec (.rgb r g b) s = .next t ∧ Failed s t .format)

/-- R110: RGBA; FormatError where it is not inside IN. -/
def Obligations.RgbaDecodesChannels : Prop :=
  ∀ (r g b a : Byte) (s : State), s.Decoding →
    (s.pos.toNat + 5 ≤ s.len.toNat → ∃ t, exec (.rgba r g b a) s = .next t ∧ Decoded s t 5 ⟨r, g, b, a⟩ 0) ∧
    (s.len.toNat < s.pos.toNat + 5 → ∃ t, exec (.rgba r g b a) s = .next t ∧ Failed s t .format)

/-- R111: a repetition step returns PREV and moves no POS, and it never fails. -/
def Obligations.OwedRepetitionReturnsPrev : Prop :=
  ∀ s : State, s.err = .none → s.mode = .dec → s.drun ≠ 0 →
    ∃ t, exec .decStep s = .next t ∧ Decoded s t 0 s.prev (s.drun - 1)

/-- R104: at a command boundary, DEC_STEP in DEC with the chunk at POS inside IN produces one pixel, counted and written to the
cache, and advances POS by the chunk's length. -/
def Obligations.DecStepProducesPixel : Prop :=
  ∀ (s : State) (b0 : Byte), s.Inv → s.Decoding → s.input.read s.pos.toNat = some b0 →
    s.pos.toNat + chunkLength b0 ≤ s.len.toNat →
    ∃ t px owed, exec .decStep s = .next t ∧ Decoded s t (chunkLength b0) px owed

/-- R113: the step that produces the last pixel ends the pass with nothing owed, even inside a RUN chunk, and a further DEC_STEP
is a CommandError. -/
def Obligations.LastPixelEndsDecode : Prop :=
  ∀ (s t : State), s.err = .none → s.mode = .dec → s.count = 1 → exec .decStep s = .next t → t.err = .none →
    t.mode = .decDone ∧ t.drun = 0 ∧ t.count = 0 ∧ ∃ u, exec .decStep t = .next u ∧ Failed t u .command

/-! ### Invariants -/

/-- The invariant holds at reset. -/
def Obligations.InvariantHoldsAtReset : Prop := State.reset.Inv

/-- Every step keeps the invariant, from every state that meets it, whatever the host puts on the inputs
(R18 to R21, R24, R33, R83, R87, R94, R113). -/
def Obligations.StepKeepsInvariant : Prop :=
  ∀ s t : State, s.Inv → step s = .next t → t.Inv

/-- R84: after every ENC_PIXEL and DEC_STEP that is neither failed nor ignored, the slot of PREV's hash holds PREV; one that is
leaves CACHE and PREV as they were; and it does not hold after a START or reset. -/
def Obligations.CacheHoldsPrevAfterPixel : Prop :=
  (∀ (i : Instr) (s t : State), (i = .decStep ∨ ∃ p, i = .encPixel p) → exec i s = .next t →
    (t.err = .none → t.cache.lookup (hash t.prev) = t.prev) ∧
    (t.err ≠ .none → t.cache = s.cache ∧ t.prev = s.prev)) ∧
  (∀ (i : Instr) (s t : State), ((∃ c n, i = .encStart c n) ∨ ∃ n bytes, i = .decStart n bytes) → exec i s = .next t →
    t.cache.lookup (hash t.prev) ≠ t.prev) ∧
  State.reset.cache.lookup (hash State.reset.prev) ≠ State.reset.prev

/-- Every step keeps IN and OUT in their canonical form, from every state that has it. -/
def Obligations.StepKeepsMemoryCanonical : Prop :=
  ∀ s t : State, s.input.wf = true → s.out.wf = true → step s = .next t → t.input.wf = true ∧ t.out.wf = true

/-! ### Encoder and decoder together -/

/-- R116: the chunk the encoder selects for a pixel that differs from PREV, or a RUN for one that equals it, decoded from the
same PREV and CACHE, reconstructs the pixel. -/
def Obligations.SelectedChunkReconstructsPixel : Prop :=
  ∀ (p : Pixel) (s : State) (c : Chunk), s.Decoding →
    ((p ≠ s.prev ∧ c = selectChunk s.cache s.prev p) ∨ (p = s.prev ∧ ∃ len, c = .run len ∧ 1 ≤ len ∧ len ≤ 62)) →
    s.pos.toNat + (encodeChunk c).length ≤ s.len.toNat →
    ∃ t, exec c.toInstr s = .next t ∧ ∃ owed, Decoded s t (encodeChunk c).length p owed

/-- R85: after the encoder's k-th ENC_PIXEL and the decoder's k-th DEC_STEP on the stream the encoder produced (with any bytes
after it), the two engines hold equal CACHE and equal PREV, for every image, mode and start states. -/
def Obligations.EncoderAndDecoderStayInLockstep : Prop :=
  ∀ (c : Bool) (ps : List Pixel) (trail : List Byte) (s s' e : State),
    0 < ps.length → ps.length < 2 ^ 64 →
    issueAll (encStartCommand c (BitVec.ofNat 64 ps.length) :: ps.map encPixelCommand) s = .next e →
    (e.out.map Prod.snd ++ trail).length < 2 ^ 64 →
    ∀ k ≤ ps.length, ∃ ek dk,
      issueAll (encStartCommand c (BitVec.ofNat 64 ps.length) :: (ps.take k).map encPixelCommand) s = .next ek ∧
      issueAll (decStartCommand (BitVec.ofNat 64 ps.length) (e.out.map Prod.snd ++ trail) ::
        List.replicate k decStepCommand) s' = .next dk ∧
      dk.err = .none ∧ dk.cache = ek.cache ∧ dk.prev = ek.prev

/-- R122 for every Image whose chunk stream OUT's 64-bit offsets can name (R33) and whose bytes after the header the 64-bit LEN can
count (R22): the host's encode succeeds, and decoding the stream gives the Image back, alpha replaced by 255 where it has 3
channels; from any two engine states and for any value of MAGIC. Encoding a valid Image fails in no other way than by a full OUT
(log entry 4), for which it needs 2^64 / 5 pixels at least. -/
def Obligations.DecodeInvertsEncode : Prop :=
  ∀ (im : Image) (s s' : State), im.width ≠ 0 → im.height ≠ 0 → im.pixels.length = im.area →
    ((∃ bytes u, hostEncode im s = .ok (bytes, u)) ∨
      (hostEncode im s = .error .engineStopped ∧ 2 ^ 64 ≤ 5 * im.area)) ∧
    ∀ bytes u, hostEncode im s = .ok (bytes, u) → (bytes.drop 14).length < 2 ^ 64 →
      ∃ u', hostDecode bytes s' =
        .ok ({ im with pixels := im.pixels.map (effectivePixel (decide (im.channels = .four))) }, u')

/-! ### The host at the boundary -/

/-- R120: an Image with a zero dimension or a wrong pixel count is a ValidationError. -/
def Obligations.HostEncodeRejectsInvalidImage : Prop :=
  ∀ (im : Image) (s : State), im.width = 0 ∨ im.height = 0 ∨ im.pixels.length ≠ im.area →
    hostEncode im s = .error .validationError

/-- R117, R119, R120: the stream is the 14-byte header with MAGIC and big-endian width and height, the chunk stream that OUT holds, and
the 8-byte end marker. -/
def Obligations.StreamLayout : Prop :=
  ∀ (im : Image) (s u : State) (bytes : List Byte), hostEncode im s = .ok (bytes, u) →
    ∃ body : List Byte, bytes = header im ++ body ++ [0, 0, 0, 0, 0, 0, 0, 1] ∧
      (header im).length = 14 ∧ (header im).take 4 = be32 Config.magic ∧
      (header im).drop 4 =
        [BitVec.ofNat 8 (im.width.toNat / 2 ^ 24), BitVec.ofNat 8 (im.width.toNat / 2 ^ 16),
          BitVec.ofNat 8 (im.width.toNat / 2 ^ 8), BitVec.ofNat 8 im.width.toNat,
          BitVec.ofNat 8 (im.height.toNat / 2 ^ 24), BitVec.ofNat 8 (im.height.toNat / 2 ^ 16),
          BitVec.ofNat 8 (im.height.toNat / 2 ^ 8), BitVec.ofNat 8 im.height.toNat,
          (if im.channels = .four then 4 else 3), BitVec.ofNat 8 im.colorspace.toNat] ∧
      u.mode = .encDone ∧ u.err = .none ∧ u.outLen.toNat = body.length ∧ ∀ k, u.out.read k = body[k]?

/-- R121: a stream shorter than the header, with another magic, with a channel byte not 3 or 4, a colorspace byte not 0 or 1, or
a zero dimension is a FormatError. -/
def Obligations.HostDecodeRejectsBadHeader : Prop :=
  ∀ (bytes : List Byte) (s : State),
    (bytes.length < 14 ∨ bytes.take 4 ≠ be32 Config.magic ∨
      (bytes[12]? ≠ some 3#8 ∧ bytes[12]? ≠ some 4#8) ∨ (bytes[13]? ≠ some 0#8 ∧ bytes[13]? ≠ some 1#8) ∨
      bytes.take 8 = bytes.take 4 ++ [0, 0, 0, 0] ∨ bytes.take 12 = bytes.take 8 ++ [0, 0, 0, 0]) →
    hostDecode bytes s = .error .formatError

/-! ### The end of OUT -/

/-- The model's own (log entry 4): OUTLEN is 64 bits wide, as R33's offsets are (DEDUCED), and an ENC_PIXEL whose bytes OUT has no
offset for stops by name (DESIGN CHOICE). -/
def Obligations.FullOutputStopsEncPixel : Prop :=
  ∀ (q : Pixel) (s : State), s.Encoding → 2 ^ 64 ≤ s.outLen.toNat + (pixelBytes (effectivePixel s.chan4 q) s).length →
    exec (.encPixel q) s = .fault .outputFull
end

