-- ==== Sys2Proof/Laws/State.lean ====
section
/-! SUPPORT. One lemma per field per update of the state, so that no later proof unfolds a record update. -/
namespace Sys2Proof.Machine

/-! R73: a response changes nothing else. -/

@[simp] theorem respond_mode (s : State) (bs : List Byte) (px : Option Pixel) :
    (s.respond bs px).mode = s.mode := rfl
@[simp] theorem respond_err (s : State) (bs : List Byte) (px : Option Pixel) :
    (s.respond bs px).err = s.err := rfl
@[simp] theorem respond_chan4 (s : State) (bs : List Byte) (px : Option Pixel) :
    (s.respond bs px).chan4 = s.chan4 := rfl
@[simp] theorem respond_prev (s : State) (bs : List Byte) (px : Option Pixel) :
    (s.respond bs px).prev = s.prev := rfl
@[simp] theorem respond_run (s : State) (bs : List Byte) (px : Option Pixel) :
    (s.respond bs px).run = s.run := rfl
@[simp] theorem respond_drun (s : State) (bs : List Byte) (px : Option Pixel) :
    (s.respond bs px).drun = s.drun := rfl
@[simp] theorem respond_count (s : State) (bs : List Byte) (px : Option Pixel) :
    (s.respond bs px).count = s.count := rfl
@[simp] theorem respond_pos (s : State) (bs : List Byte) (px : Option Pixel) :
    (s.respond bs px).pos = s.pos := rfl
@[simp] theorem respond_len (s : State) (bs : List Byte) (px : Option Pixel) :
    (s.respond bs px).len = s.len := rfl
@[simp] theorem respond_cache (s : State) (bs : List Byte) (px : Option Pixel) :
    (s.respond bs px).cache = s.cache := rfl
@[simp] theorem respond_input (s : State) (bs : List Byte) (px : Option Pixel) :
    (s.respond bs px).input = s.input := rfl
@[simp] theorem respond_out (s : State) (bs : List Byte) (px : Option Pixel) :
    (s.respond bs px).out = s.out := rfl
@[simp] theorem respond_outLen (s : State) (bs : List Byte) (px : Option Pixel) :
    (s.respond bs px).outLen = s.outLen := rfl
@[simp] theorem respond_port (s : State) (bs : List Byte) (px : Option Pixel) :
    (s.respond bs px).port = s.port := rfl
@[simp] theorem respond_response (s : State) (bs : List Byte) (px : Option Pixel) :
    (s.respond bs px).response = some ⟨statusByte s.mode s.err, bs, px.map Pixel.toWord⟩ := rfl

/-! R129: an ignored command only responds. -/

@[simp] theorem ignore_mode (s : State) :
    (s.ignore).mode = s.mode := rfl
@[simp] theorem ignore_err (s : State) :
    (s.ignore).err = s.err := rfl
@[simp] theorem ignore_chan4 (s : State) :
    (s.ignore).chan4 = s.chan4 := rfl
@[simp] theorem ignore_prev (s : State) :
    (s.ignore).prev = s.prev := rfl
@[simp] theorem ignore_run (s : State) :
    (s.ignore).run = s.run := rfl
@[simp] theorem ignore_drun (s : State) :
    (s.ignore).drun = s.drun := rfl
@[simp] theorem ignore_count (s : State) :
    (s.ignore).count = s.count := rfl
@[simp] theorem ignore_pos (s : State) :
    (s.ignore).pos = s.pos := rfl
@[simp] theorem ignore_len (s : State) :
    (s.ignore).len = s.len := rfl
@[simp] theorem ignore_cache (s : State) :
    (s.ignore).cache = s.cache := rfl
@[simp] theorem ignore_input (s : State) :
    (s.ignore).input = s.input := rfl
@[simp] theorem ignore_out (s : State) :
    (s.ignore).out = s.out := rfl
@[simp] theorem ignore_outLen (s : State) :
    (s.ignore).outLen = s.outLen := rfl
@[simp] theorem ignore_port (s : State) :
    (s.ignore).port = s.port := rfl
@[simp] theorem ignore_response (s : State) :
    (s.ignore).response = some ⟨statusByte s.mode s.err, [], none⟩ := rfl

/-! R128: raising changes ERR and responds. -/

@[simp] theorem raise_mode (s : State) (e : Err) :
    (s.raise e).mode = s.mode := rfl
@[simp] theorem raise_err (s : State) (e : Err) :
    (s.raise e).err = e := rfl
@[simp] theorem raise_chan4 (s : State) (e : Err) :
    (s.raise e).chan4 = s.chan4 := rfl
@[simp] theorem raise_prev (s : State) (e : Err) :
    (s.raise e).prev = s.prev := rfl
@[simp] theorem raise_run (s : State) (e : Err) :
    (s.raise e).run = s.run := rfl
@[simp] theorem raise_drun (s : State) (e : Err) :
    (s.raise e).drun = s.drun := rfl
@[simp] theorem raise_count (s : State) (e : Err) :
    (s.raise e).count = s.count := rfl
@[simp] theorem raise_pos (s : State) (e : Err) :
    (s.raise e).pos = s.pos := rfl
@[simp] theorem raise_len (s : State) (e : Err) :
    (s.raise e).len = s.len := rfl
@[simp] theorem raise_cache (s : State) (e : Err) :
    (s.raise e).cache = s.cache := rfl
@[simp] theorem raise_input (s : State) (e : Err) :
    (s.raise e).input = s.input := rfl
@[simp] theorem raise_out (s : State) (e : Err) :
    (s.raise e).out = s.out := rfl
@[simp] theorem raise_outLen (s : State) (e : Err) :
    (s.raise e).outLen = s.outLen := rfl
@[simp] theorem raise_port (s : State) (e : Err) :
    (s.raise e).port = s.port := rfl
@[simp] theorem raise_response (s : State) (e : Err) :
    (s.raise e).response = some ⟨statusByte s.mode e, [], none⟩ := rfl

/-! R86, R103: what a START clears. -/

@[simp] theorem clearPass_mode (s : State) :
    (s.clearPass).mode = s.mode := rfl
@[simp] theorem clearPass_err (s : State) :
    (s.clearPass).err = .none := rfl
@[simp] theorem clearPass_chan4 (s : State) :
    (s.clearPass).chan4 = s.chan4 := rfl
@[simp] theorem clearPass_prev (s : State) :
    (s.clearPass).prev = seedPixel := rfl
@[simp] theorem clearPass_run (s : State) :
    (s.clearPass).run = 0 := rfl
@[simp] theorem clearPass_drun (s : State) :
    (s.clearPass).drun = 0 := rfl
@[simp] theorem clearPass_count (s : State) :
    (s.clearPass).count = s.count := rfl
@[simp] theorem clearPass_pos (s : State) :
    (s.clearPass).pos = 0 := rfl
@[simp] theorem clearPass_len (s : State) :
    (s.clearPass).len = 0 := rfl
@[simp] theorem clearPass_cache (s : State) :
    (s.clearPass).cache = clearCache := rfl
@[simp] theorem clearPass_input (s : State) :
    (s.clearPass).input = [] := rfl
@[simp] theorem clearPass_out (s : State) :
    (s.clearPass).out = [] := rfl
@[simp] theorem clearPass_outLen (s : State) :
    (s.clearPass).outLen = 0 := rfl
@[simp] theorem clearPass_port (s : State) :
    (s.clearPass).port = s.port := rfl
@[simp] theorem clearPass_response (s : State) :
    (s.clearPass).response = s.response := rfl

/-! R20: one pixel counted. -/

@[simp] theorem countPixel_mode (s : State) (m : Mode) :
    (s.countPixel m).mode = if s.count - 1 = 0 then m else s.mode := rfl
@[simp] theorem countPixel_err (s : State) (m : Mode) :
    (s.countPixel m).err = s.err := rfl
@[simp] theorem countPixel_chan4 (s : State) (m : Mode) :
    (s.countPixel m).chan4 = s.chan4 := rfl
@[simp] theorem countPixel_prev (s : State) (m : Mode) :
    (s.countPixel m).prev = s.prev := rfl
@[simp] theorem countPixel_run (s : State) (m : Mode) :
    (s.countPixel m).run = s.run := rfl
@[simp] theorem countPixel_drun (s : State) (m : Mode) :
    (s.countPixel m).drun = s.drun := rfl
@[simp] theorem countPixel_count (s : State) (m : Mode) :
    (s.countPixel m).count = s.count - 1 := rfl
@[simp] theorem countPixel_pos (s : State) (m : Mode) :
    (s.countPixel m).pos = s.pos := rfl
@[simp] theorem countPixel_len (s : State) (m : Mode) :
    (s.countPixel m).len = s.len := rfl
@[simp] theorem countPixel_cache (s : State) (m : Mode) :
    (s.countPixel m).cache = s.cache := rfl
@[simp] theorem countPixel_input (s : State) (m : Mode) :
    (s.countPixel m).input = s.input := rfl
@[simp] theorem countPixel_out (s : State) (m : Mode) :
    (s.countPixel m).out = s.out := rfl
@[simp] theorem countPixel_outLen (s : State) (m : Mode) :
    (s.countPixel m).outLen = s.outLen := rfl
@[simp] theorem countPixel_port (s : State) (m : Mode) :
    (s.countPixel m).port = s.port := rfl
@[simp] theorem countPixel_response (s : State) (m : Mode) :
    (s.countPixel m).response = s.response := rfl

/-! R36: bytes appended. -/

@[simp] theorem emit_mode (s : State) (bs : List Byte) :
    (s.emit bs).mode = s.mode := rfl
@[simp] theorem emit_err (s : State) (bs : List Byte) :
    (s.emit bs).err = s.err := rfl
@[simp] theorem emit_chan4 (s : State) (bs : List Byte) :
    (s.emit bs).chan4 = s.chan4 := rfl
@[simp] theorem emit_prev (s : State) (bs : List Byte) :
    (s.emit bs).prev = s.prev := rfl
@[simp] theorem emit_run (s : State) (bs : List Byte) :
    (s.emit bs).run = s.run := rfl
@[simp] theorem emit_drun (s : State) (bs : List Byte) :
    (s.emit bs).drun = s.drun := rfl
@[simp] theorem emit_count (s : State) (bs : List Byte) :
    (s.emit bs).count = s.count := rfl
@[simp] theorem emit_pos (s : State) (bs : List Byte) :
    (s.emit bs).pos = s.pos := rfl
@[simp] theorem emit_len (s : State) (bs : List Byte) :
    (s.emit bs).len = s.len := rfl
@[simp] theorem emit_cache (s : State) (bs : List Byte) :
    (s.emit bs).cache = s.cache := rfl
@[simp] theorem emit_input (s : State) (bs : List Byte) :
    (s.emit bs).input = s.input := rfl
@[simp] theorem emit_out (s : State) (bs : List Byte) :
    (s.emit bs).out = s.out.writeBytes s.outLen.toNat bs := rfl
@[simp] theorem emit_outLen (s : State) (bs : List Byte) :
    (s.emit bs).outLen = s.outLen + BitVec.ofNat 64 bs.length := rfl
@[simp] theorem emit_port (s : State) (bs : List Byte) :
    (s.emit bs).port = s.port := rfl
@[simp] theorem emit_response (s : State) (bs : List Byte) :
    (s.emit bs).response = s.response := rfl

/-! R80: the cache updated. -/

@[simp] theorem update_mode (s : State) (p : Pixel) :
    (s.update p).mode = s.mode := rfl
@[simp] theorem update_err (s : State) (p : Pixel) :
    (s.update p).err = s.err := rfl
@[simp] theorem update_chan4 (s : State) (p : Pixel) :
    (s.update p).chan4 = s.chan4 := rfl
@[simp] theorem update_prev (s : State) (p : Pixel) :
    (s.update p).prev = s.prev := rfl
@[simp] theorem update_run (s : State) (p : Pixel) :
    (s.update p).run = s.run := rfl
@[simp] theorem update_drun (s : State) (p : Pixel) :
    (s.update p).drun = s.drun := rfl
@[simp] theorem update_count (s : State) (p : Pixel) :
    (s.update p).count = s.count := rfl
@[simp] theorem update_pos (s : State) (p : Pixel) :
    (s.update p).pos = s.pos := rfl
@[simp] theorem update_len (s : State) (p : Pixel) :
    (s.update p).len = s.len := rfl
@[simp] theorem update_cache (s : State) (p : Pixel) :
    (s.update p).cache = s.cache.update p := rfl
@[simp] theorem update_input (s : State) (p : Pixel) :
    (s.update p).input = s.input := rfl
@[simp] theorem update_out (s : State) (p : Pixel) :
    (s.update p).out = s.out := rfl
@[simp] theorem update_outLen (s : State) (p : Pixel) :
    (s.update p).outLen = s.outLen := rfl
@[simp] theorem update_port (s : State) (p : Pixel) :
    (s.update p).port = s.port := rfl
@[simp] theorem update_response (s : State) (p : Pixel) :
    (s.update p).response = s.response := rfl

/-! R88: the end of an ENC_PIXEL that encodes. -/

@[simp] theorem finishPixel_mode (out : List Byte) (s : State) :
    (finishPixel out s).mode = if s.count - 1 = 0 then .encDone else s.mode := rfl
@[simp] theorem finishPixel_err (out : List Byte) (s : State) :
    (finishPixel out s).err = s.err := rfl
@[simp] theorem finishPixel_chan4 (out : List Byte) (s : State) :
    (finishPixel out s).chan4 = s.chan4 := rfl
@[simp] theorem finishPixel_prev (out : List Byte) (s : State) :
    (finishPixel out s).prev = s.prev := rfl
@[simp] theorem finishPixel_run (out : List Byte) (s : State) :
    (finishPixel out s).run = s.run := rfl
@[simp] theorem finishPixel_drun (out : List Byte) (s : State) :
    (finishPixel out s).drun = s.drun := rfl
@[simp] theorem finishPixel_count (out : List Byte) (s : State) :
    (finishPixel out s).count = s.count - 1 := rfl
@[simp] theorem finishPixel_pos (out : List Byte) (s : State) :
    (finishPixel out s).pos = s.pos := rfl
@[simp] theorem finishPixel_len (out : List Byte) (s : State) :
    (finishPixel out s).len = s.len := rfl
@[simp] theorem finishPixel_cache (out : List Byte) (s : State) :
    (finishPixel out s).cache = s.cache := rfl
@[simp] theorem finishPixel_input (out : List Byte) (s : State) :
    (finishPixel out s).input = s.input := rfl
@[simp] theorem finishPixel_out (out : List Byte) (s : State) :
    (finishPixel out s).out = s.out.writeBytes s.outLen.toNat out := rfl
@[simp] theorem finishPixel_outLen (out : List Byte) (s : State) :
    (finishPixel out s).outLen = s.outLen + BitVec.ofNat 64 out.length := rfl
@[simp] theorem finishPixel_port (out : List Byte) (s : State) :
    (finishPixel out s).port = s.port := rfl
@[simp] theorem finishPixel_response (out : List Byte) (s : State) :
    (finishPixel out s).response = some ⟨statusByte (if s.count - 1 = 0 then .encDone else s.mode) s.err, out, none⟩ := rfl

/-! R104: the common tail. -/

@[simp] theorem producePixel_mode (px : Pixel) (s : State) :
    (producePixel px s).mode = if s.count - 1 = 0 then .decDone else s.mode := rfl
@[simp] theorem producePixel_err (px : Pixel) (s : State) :
    (producePixel px s).err = s.err := rfl
@[simp] theorem producePixel_chan4 (px : Pixel) (s : State) :
    (producePixel px s).chan4 = s.chan4 := rfl
@[simp] theorem producePixel_prev (px : Pixel) (s : State) :
    (producePixel px s).prev = px := rfl
@[simp] theorem producePixel_run (px : Pixel) (s : State) :
    (producePixel px s).run = s.run := rfl
@[simp] theorem producePixel_drun (px : Pixel) (s : State) :
    (producePixel px s).drun = if s.count - 1 = 0 then 0 else s.drun := rfl
@[simp] theorem producePixel_count (px : Pixel) (s : State) :
    (producePixel px s).count = s.count - 1 := rfl
@[simp] theorem producePixel_pos (px : Pixel) (s : State) :
    (producePixel px s).pos = s.pos := rfl
@[simp] theorem producePixel_len (px : Pixel) (s : State) :
    (producePixel px s).len = s.len := rfl
@[simp] theorem producePixel_cache (px : Pixel) (s : State) :
    (producePixel px s).cache = s.cache.update px := rfl
@[simp] theorem producePixel_input (px : Pixel) (s : State) :
    (producePixel px s).input = s.input := rfl
@[simp] theorem producePixel_out (px : Pixel) (s : State) :
    (producePixel px s).out = s.out := rfl
@[simp] theorem producePixel_outLen (px : Pixel) (s : State) :
    (producePixel px s).outLen = s.outLen := rfl
@[simp] theorem producePixel_port (px : Pixel) (s : State) :
    (producePixel px s).port = s.port := rfl
@[simp] theorem producePixel_response (px : Pixel) (s : State) :
    (producePixel px s).response = some ⟨statusByte (if s.count - 1 = 0 then .decDone else s.mode) s.err, [], some px.toWord⟩ := rfl

/-! R86, R103: the last part of a START. -/

@[simp] theorem startCount_mode (s : State) (n : Count) (m : Mode) (e : Err) :
    (s.startCount n m e).mode = if n = 0 then .idle else m := by
  unfold State.startCount; split <;> simp_all
@[simp] theorem startCount_err (s : State) (n : Count) (m : Mode) (e : Err) :
    (s.startCount n m e).err = if n = 0 then e else s.err := by
  unfold State.startCount; split <;> simp_all
@[simp] theorem startCount_chan4 (s : State) (n : Count) (m : Mode) (e : Err) :
    (s.startCount n m e).chan4 = s.chan4 := by
  unfold State.startCount; split <;> simp_all
@[simp] theorem startCount_prev (s : State) (n : Count) (m : Mode) (e : Err) :
    (s.startCount n m e).prev = s.prev := by
  unfold State.startCount; split <;> simp_all
@[simp] theorem startCount_run (s : State) (n : Count) (m : Mode) (e : Err) :
    (s.startCount n m e).run = s.run := by
  unfold State.startCount; split <;> simp_all
@[simp] theorem startCount_drun (s : State) (n : Count) (m : Mode) (e : Err) :
    (s.startCount n m e).drun = s.drun := by
  unfold State.startCount; split <;> simp_all
@[simp] theorem startCount_count (s : State) (n : Count) (m : Mode) (e : Err) :
    (s.startCount n m e).count = n := by
  unfold State.startCount; split <;> simp_all
@[simp] theorem startCount_pos (s : State) (n : Count) (m : Mode) (e : Err) :
    (s.startCount n m e).pos = s.pos := by
  unfold State.startCount; split <;> simp_all
@[simp] theorem startCount_len (s : State) (n : Count) (m : Mode) (e : Err) :
    (s.startCount n m e).len = s.len := by
  unfold State.startCount; split <;> simp_all
@[simp] theorem startCount_cache (s : State) (n : Count) (m : Mode) (e : Err) :
    (s.startCount n m e).cache = s.cache := by
  unfold State.startCount; split <;> simp_all
@[simp] theorem startCount_input (s : State) (n : Count) (m : Mode) (e : Err) :
    (s.startCount n m e).input = s.input := by
  unfold State.startCount; split <;> simp_all
@[simp] theorem startCount_out (s : State) (n : Count) (m : Mode) (e : Err) :
    (s.startCount n m e).out = s.out := by
  unfold State.startCount; split <;> simp_all
@[simp] theorem startCount_outLen (s : State) (n : Count) (m : Mode) (e : Err) :
    (s.startCount n m e).outLen = s.outLen := by
  unfold State.startCount; split <;> simp_all
@[simp] theorem startCount_port (s : State) (n : Count) (m : Mode) (e : Err) :
    (s.startCount n m e).port = s.port := by
  unfold State.startCount; split <;> simp_all
@[simp] theorem startCount_response (s : State) (n : Count) (m : Mode) (e : Err) :
    (s.startCount n m e).response = some (if n = 0 then ⟨statusByte .idle e, [], none⟩ else ⟨statusByte m s.err, [], none⟩) := by
  unfold State.startCount; split <;> simp_all

end Sys2Proof.Machine
end

