-- ==== Sys2Proof/Laws/Bits.lean ====
section
/-! SUPPORT. The pixel ports' layout (R15), the bits of a byte by number, and the arithmetic of deltas (R10, R63, R90). -/
namespace Sys2Proof

/-- A pixel is what its port word holds (R15). -/
@[simp] theorem Pixel.ofWord_toWord (p : Pixel) : Pixel.ofWord p.toWord = p := by
  obtain ⟨r, g, b, a⟩ := p
  simp only [Pixel.ofWord, Pixel.toWord, Pixel.mk.injEq]
  refine ⟨?_, ?_, ?_, ?_⟩ <;>
  · apply BitVec.eq_of_getLsbD_eq
    intro i hi
    simp only [BitVec.getLsbD_extractLsb', BitVec.getLsbD_append]
    have h := hi
    rcases (by omega : i = 0 ∨ i = 1 ∨ i = 2 ∨ i = 3 ∨ i = 4 ∨ i = 5 ∨ i = 6 ∨ i = 7) with
      rfl | rfl | rfl | rfl | rfl | rfl | rfl | rfl <;> simp

/-- A field of a word, by number. -/
theorem toNat_field {w : Nat} (v : BitVec w) (lo n : Nat) : (v.extractLsb' lo n).toNat = v.toNat / 2 ^ lo % 2 ^ n := by
  simp [BitVec.extractLsb'_toNat, Nat.shiftRight_eq_div_pow]

/-- A concatenation, by number. -/
theorem toNat_append' {m n : Nat} (x : BitVec m) (y : BitVec n) : (x ++ y).toNat = x.toNat * 2 ^ n + y.toNat := by
  rw [BitVec.toNat_append, ← Nat.shiftLeft_add_eq_or_of_lt y.isLt, Nat.shiftLeft_eq]

/-- A biased field, by number, when the value is in its range (R65). -/
theorem toNat_biased (w : Nat) (v bias : Int) (h0 : 0 ≤ v + bias) (h1 : v + bias < 2 ^ w) :
    ((biased w v bias).toNat : Int) = v + bias := by
  have hw : ((2 ^ w : Nat) : Int) = 2 ^ w := by simp
  have hpos : ((2 ^ w : Nat) : Int) ≠ 0 := by have := Nat.two_pow_pos w; omega
  rw [biased, BitVec.toNat_ofInt, Int.toNat_of_nonneg (Int.emod_nonneg _ hpos)]
  exact Int.emod_eq_of_lt h0 (by rw [hw]; exact h1)

end Sys2Proof

namespace Sys2Proof.Machine

theorem toNat_wrap8 (v : Int) : ((wrap8 v).toNat : Int) = v % 256 := by
  rw [wrap8, BitVec.toNat_ofInt, Int.toNat_of_nonneg (Int.emod_nonneg _ (by decide))]
  rfl

/-- R116: `wrap8(PREV.c + s8(p.c - PREV.c)) = p.c`. -/
theorem addDelta_delta (current previous : Byte) : addDelta previous (delta current previous) = current := by
  apply BitVec.eq_of_toNat_eq
  have h := toNat_wrap8 ((previous.toNat : Int) + delta current previous)
  have hc := current.isLt
  have hp := previous.isLt
  unfold addDelta
  unfold delta s8 at *
  split at h <;> rename_i hs <;> simp only [hs, if_true, if_false] <;> omega

/-- R63: adding a delta is adding it modulo 256. -/
theorem addDelta_eq_add (previous : Byte) (d : Int) : addDelta previous d = previous + BitVec.ofInt 8 d := by
  apply BitVec.eq_of_toNat_eq
  have h := toNat_wrap8 ((previous.toNat : Int) + d)
  have h2 := toNat_wrap8 d
  unfold addDelta
  unfold wrap8 at *
  rw [BitVec.toNat_add]
  omega

/-- R90: a delta is in [-128, 127]. -/
theorem delta_range (current previous : Byte) :
    -128 ≤ delta current previous ∧ delta current previous ≤ 127 := by
  unfold delta s8; split <;> omega

/-- A delta of 0 is an equal channel. -/
theorem delta_eq_zero (current previous : Byte) : delta current previous = 0 ↔ current = previous := by
  constructor
  · intro h
    have := addDelta_delta current previous
    rw [h, addDelta_eq_add] at this
    simpa using this.symm
  · rintro rfl; simp [delta, s8]

end Sys2Proof.Machine
end

