-- ==== Sys2Proof/Laws/Cache.lean ====
section
/-! SUPPORT. The laws of the colour cache (R76 to R80, R83). -/
namespace Sys2Proof.Machine

/-- R76, by number. -/
theorem hash_toNat (p : Pixel) :
    (hash p).toNat = (p.r.toNat * 3 + p.g.toNat * 5 + p.b.toNat * 7 + p.a.toNat * 11) % 64 := by
  simp [hash]

/-- R80: read after update. -/
theorem Cache.lookup_update (c : Cache) (p : Pixel) (i : Slot) :
    (c.update p).lookup i = if i = hash p then p else c.lookup i := by
  unfold Cache.update Cache.lookup
  rw [Vector.getElem_set]
  by_cases h : i = hash p
  · subst h; simp
  · rw [if_neg h, if_neg (fun h' => h (BitVec.eq_of_toNat_eq h'.symm))]

/-- R29: a cleared slot. -/
@[simp] theorem Cache.lookup_clear (i : Slot) : clearCache.lookup i = clearPixel := by
  simp [Cache.lookup, clearCache]

/-- R79, as an equation. -/
theorem Cache.hit_iff (c : Cache) (p : Pixel) : c.hit p = true ↔ c.lookup (hash p) = p := by
  simp [Cache.hit]

/-- Two caches with the same slots are one. -/
theorem Cache.ext_lookup (c d : Cache) (h : ∀ i : Slot, c.lookup i = d.lookup i) : c = d := by
  apply Vector.ext
  intro i hi
  have := h (BitVec.ofNat 6 i)
  have e : (BitVec.ofNat 6 i).toNat = i := (BitVec.toNat_ofNat i 6).trans (Nat.mod_eq_of_lt hi)
  simpa only [Cache.lookup, e] using this

/-- Writing the pixel its slot already holds changes nothing (R80). -/
theorem Cache.update_hit (c : Cache) (p : Pixel) (h : c.lookup (hash p) = p) : c.update p = c := by
  apply Cache.ext_lookup
  intro i
  rw [Cache.lookup_update]
  split
  · next e => rw [e, h]
  · rfl

/-- R83 for one update: each slot cleared or home to its pixel. -/
theorem Cache.update_home (c : Cache) (p : Pixel)
    (h : ∀ i : Slot, c.lookup i = clearPixel ∨ hash (c.lookup i) = i) (i : Slot) :
    (c.update p).lookup i = clearPixel ∨ hash ((c.update p).lookup i) = i := by
  rw [Cache.lookup_update]
  split
  · next e => exact .inr e.symm
  · exact h i

end Sys2Proof.Machine
end

