-- ==== Sys2Proof/Laws/Codec.lean ====
section
/-! SUPPORT. The chunk codec by number: the bytes of each chunk, the length a first byte names, and what each decoder part
reads (R54 to R65). -/
namespace Sys2Proof

/-- A byte by its number. -/
theorem byte_ext {x y : Byte} (h : x.toNat = y.toNat) : x = y := BitVec.eq_of_toNat_eq h

/-- The tag of a byte, by number. -/
theorem tag_toNat (b : Byte) : (b.extractLsb' 6 2).toNat = b.toNat / 64 := by
  rw [toNat_field]; have := b.isLt; omega

/-- R54, R62: the length by ranges of the first byte. -/
theorem chunkLength_eq (b0 : Byte) :
    chunkLength b0 = if b0.toNat = 0xFE then 4 else if b0.toNat = 0xFF then 5
      else if 0x80 ≤ b0.toNat ∧ b0.toNat ≤ 0xBF then 2 else 1 := by
  have h1 : b0 = 0xFE#8 ↔ b0.toNat = 0xFE := ⟨fun h => by rw [h]; rfl, fun h => byte_ext h⟩
  have h2 : b0 = 0xFF#8 ↔ b0.toNat = 0xFF := ⟨fun h => by rw [h]; rfl, fun h => byte_ext h⟩
  have h3 : b0.extractLsb' 6 2 = 0b10#2 ↔ 0x80 ≤ b0.toNat ∧ b0.toNat ≤ 0xBF := by
    rw [← BitVec.toNat_inj, tag_toNat]; simp; omega
  unfold chunkLength
  simp only [h1, h2, h3]

theorem chunkLength_pos (b0 : Byte) : 1 ≤ chunkLength b0 ∧ chunkLength b0 ≤ 5 := by
  unfold chunkLength; split
  · omega
  · split
    · omega
    · split <;> omega

/-! ### The bytes of a chunk by number -/

theorem indexByte_toNat (i : Slot) : ((0b00#2 ++ i : BitVec (2 + 6))).toNat = i.toNat := by
  rw [toNat_append']; simp

theorem diffByte_toNat (x y z : BitVec 2) :
    ((0b01#2 ++ x ++ y ++ z : BitVec (2 + 2 + 2 + 2))).toNat = 64 + x.toNat * 16 + y.toNat * 4 + z.toNat := by
  simp only [toNat_append']; simp; omega

theorem lumaByte_toNat (x : BitVec 6) : ((0b10#2 ++ x : BitVec (2 + 6))).toNat = 128 + x.toNat := by
  rw [toNat_append']; simp

theorem nibbles_toNat (x y : BitVec 4) : ((x ++ y : BitVec (4 + 4))).toNat = x.toNat * 16 + y.toNat :=
  toNat_append' x y

theorem runByte_toNat (x : BitVec 6) : ((0b11#2 ++ x : BitVec (2 + 6))).toNat = 192 + x.toNat := by
  rw [toNat_append']; simp

/-! ### The chunk decoder by ranges of the first byte -/

theorem decodeChunk_index (b0 : Byte) (rest : List Byte) (h : b0.toNat ≤ 0x3F) :
    decodeChunk (b0 :: rest) = .ok (decodeIndex b0, rest) := by
  have h1 : b0 ≠ 0xFE#8 := fun e => by rw [e] at h; simp at h
  have h2 : b0 ≠ 0xFF#8 := fun e => by rw [e] at h; simp at h
  have h3 : b0.extractLsb' 6 2 = 0b00#2 := by rw [← BitVec.toNat_inj, tag_toNat]; simp; omega
  simp only [decodeChunk, if_neg h1, if_neg h2, if_pos h3]

theorem decodeChunk_diff (b0 : Byte) (rest : List Byte) (h : 0x40 ≤ b0.toNat ∧ b0.toNat ≤ 0x7F) :
    decodeChunk (b0 :: rest) = .ok (decodeDiff b0, rest) := by
  have h1 : b0 ≠ 0xFE#8 := fun e => by rw [e] at h; simp at h
  have h2 : b0 ≠ 0xFF#8 := fun e => by rw [e] at h; simp at h
  have h3 : b0.extractLsb' 6 2 ≠ 0b00#2 := by rw [Ne, ← BitVec.toNat_inj, tag_toNat]; simp; omega
  have h4 : b0.extractLsb' 6 2 = 0b01#2 := by rw [← BitVec.toNat_inj, tag_toNat]; simp; omega
  simp only [decodeChunk, if_neg h1, if_neg h2, if_neg h3, if_pos h4]

theorem decodeChunk_luma (b0 : Byte) (rest : List Byte) (h : 0x80 ≤ b0.toNat ∧ b0.toNat ≤ 0xBF) :
    decodeChunk (b0 :: rest) =
      match rest with
      | b1 :: rest => .ok (decodeLuma b0 b1, rest)
      | _ => .error .outOfBytes := by
  have h1 : b0 ≠ 0xFE#8 := fun e => by rw [e] at h; simp at h
  have h2 : b0 ≠ 0xFF#8 := fun e => by rw [e] at h; simp at h
  have h3 : b0.extractLsb' 6 2 ≠ 0b00#2 := by rw [Ne, ← BitVec.toNat_inj, tag_toNat]; simp; omega
  have h4 : b0.extractLsb' 6 2 ≠ 0b01#2 := by rw [Ne, ← BitVec.toNat_inj, tag_toNat]; simp; omega
  have h5 : b0.extractLsb' 6 2 = 0b10#2 := by rw [← BitVec.toNat_inj, tag_toNat]; simp; omega
  simp only [decodeChunk, if_neg h1, if_neg h2, if_neg h3, if_neg h4, if_pos h5]
  all_goals (cases rest <;> rfl)

theorem decodeChunk_run (b0 : Byte) (rest : List Byte) (h : 0xC0 ≤ b0.toNat ∧ b0.toNat ≤ 0xFD) :
    decodeChunk (b0 :: rest) = .ok (decodeRun b0, rest) := by
  have h1 : b0 ≠ 0xFE#8 := fun e => by rw [e] at h; simp at h
  have h2 : b0 ≠ 0xFF#8 := fun e => by rw [e] at h; simp at h
  have h3 : b0.extractLsb' 6 2 ≠ 0b00#2 := by rw [Ne, ← BitVec.toNat_inj, tag_toNat]; simp; omega
  have h4 : b0.extractLsb' 6 2 ≠ 0b01#2 := by rw [Ne, ← BitVec.toNat_inj, tag_toNat]; simp; omega
  have h5 : b0.extractLsb' 6 2 ≠ 0b10#2 := by rw [Ne, ← BitVec.toNat_inj, tag_toNat]; simp; omega
  simp only [decodeChunk, if_neg h1, if_neg h2, if_neg h3, if_neg h4, if_neg h5]

theorem decodeChunk_rgb (rest : List Byte) :
    decodeChunk (0xFE#8 :: rest) =
      match rest with
      | r :: g :: b :: rest => .ok (.rgb r g b, rest)
      | _ => .error .outOfBytes := by
  simp only [decodeChunk, if_true]
  all_goals (split <;> simp_all)

theorem decodeChunk_rgba (rest : List Byte) :
    decodeChunk (0xFF#8 :: rest) =
      match rest with
      | r :: g :: b :: a :: rest => .ok (.rgba r g b a, rest)
      | _ => .error .outOfBytes := by
  have h1 : ¬ (0xFF#8 = 0xFE#8) := by decide
  simp only [decodeChunk, if_neg h1, if_true]
  all_goals (split <;> simp_all)

end Sys2Proof
end

