-- ==== Sys2Proof/Laws/Memory.lean ====
section
/-! SUPPORT. The laws of a byte space: read after write, and that every operation keeps the canonical form. -/
namespace Sys2Proof.Machine

@[simp] theorem Memory.read_nil (a : Nat) : Memory.read [] a = none := rfl

theorem Memory.read_cons (k : Nat) (v : Byte) (m : Memory) (a : Nat) :
    Memory.read ((k, v) :: m) a = if k = a then some v else Memory.read m a := rfl

/-- Read after write: the written offset holds the byte, every other offset what it held. -/
theorem Memory.read_write (m : Memory) (a : Nat) (b : Byte) (x : Nat) :
    (m.write a b).read x = if x = a then some b else m.read x := by
  induction m with
  | nil => simp [Memory.write, Memory.read, eq_comm]
  | cons c m ih =>
    obtain ⟨k, v⟩ := c
    simp only [Memory.write]
    by_cases hx : x = a
    · subst hx
      rw [if_pos rfl]
      split
      · simp [Memory.read_cons]
      · split
        · simp [Memory.read_cons]
        · next h => rw [Memory.read_cons, ih, if_neg (Ne.symm h), if_pos rfl]
    · rw [if_neg hx]
      split
      · rw [Memory.read_cons, if_neg (Ne.symm hx)]
      · split
        · next h => subst h; rw [Memory.read_cons, Memory.read_cons, if_neg (Ne.symm hx), if_neg (Ne.symm hx)]
        · rw [Memory.read_cons, Memory.read_cons, ih, if_neg hx]

/-- Reading after consecutive bytes are written. -/
theorem Memory.read_writeBytes (m : Memory) (a : Nat) (bs : List Byte) (x : Nat) :
    (m.writeBytes a bs).read x = if a ≤ x ∧ x < a + bs.length then bs[x - a]? else m.read x := by
  induction bs generalizing m a with
  | nil =>
    have h : ¬ (a ≤ x ∧ x < a + ([] : List Byte).length) := by simp
    rw [if_neg h]; rfl
  | cons b bs ih =>
    simp only [Memory.writeBytes, ih, Memory.read_write, List.length_cons]
    by_cases h1 : a + 1 ≤ x ∧ x < a + 1 + bs.length
    · rw [if_pos h1, if_pos (by omega), show x - a = (x - (a + 1)) + 1 by omega, List.getElem?_cons_succ]
    · by_cases h2 : x = a
      · subst h2; rw [if_neg h1, if_pos rfl, if_pos (by omega)]; simp
      · rw [if_neg h1, if_neg h2, if_neg (by omega)]

/-- Reading a byte sequence laid out from offset a. -/
theorem Memory.read_ofBytesAt (a : Nat) (bs : List Byte) (x : Nat) :
    (Memory.ofBytesAt a bs).read x = if a ≤ x then bs[x - a]? else none := by
  induction bs generalizing a with
  | nil => simp [Memory.ofBytesAt]
  | cons b bs ih =>
    simp only [Memory.ofBytesAt, Memory.read_cons, ih]
    by_cases h : a = x
    · subst h; simp
    · rw [if_neg h]
      by_cases h2 : a + 1 ≤ x
      · rw [if_pos h2, if_pos (by omega), show x - a = (x - (a + 1)) + 1 by omega, List.getElem?_cons_succ]
      · rw [if_neg h2, if_neg (by omega)]

/-- R35: offset k of IN is byte k of the sequence handed over. -/
@[simp] theorem Memory.read_ofBytes (bs : List Byte) (x : Nat) : (Memory.ofBytes bs).read x = bs[x]? := by
  simp [Memory.ofBytes, Memory.read_ofBytesAt]

/-- The offsets a byte sequence takes. -/
theorem Memory.domain_ofBytes (bs : List Byte) : (Memory.ofBytes bs).map Prod.fst = List.range bs.length := by
  have h : ∀ (bs : List Byte) (a : Nat), (Memory.ofBytesAt a bs).map Prod.fst = List.range' a bs.length := by
    intro bs
    induction bs with
    | nil => intro a; rfl
    | cons b bs ih => intro a; simp [Memory.ofBytesAt, ih, List.range'_succ]
  rw [Memory.ofBytes, h, List.range_eq_range']

/-- A space holds a byte exactly at the offsets it lists. -/
theorem Memory.read_isSome (m : Memory) (a : Nat) : (m.read a).isSome ↔ a ∈ m.map Prod.fst := by
  induction m with
  | nil => simp
  | cons c m ih =>
    obtain ⟨k, v⟩ := c
    simp only [Memory.read_cons, List.map_cons, List.mem_cons]
    by_cases h : k = a
    · subst h; simp
    · rw [if_neg h, ih]; simp [Ne.symm h]

/-- MemRead(a, n) is a list of n bytes, byte k the one at offset a + k (R11). -/
theorem Memory.readBytes_eq_some (m : Memory) (a n : Nat) (bs : List Byte) :
    m.readBytes a n = some bs ↔ bs.length = n ∧ ∀ k < n, m.read (a + k) = bs[k]? := by
  induction n generalizing a bs with
  | zero => cases bs <;> simp [Memory.readBytes]
  | succ n ih =>
    simp only [Memory.readBytes]
    cases bs with
    | nil =>
      cases h1 : m.read a <;> cases h2 : m.readBytes (a + 1) n <;> simp
    | cons b bs =>
      have key : (∀ k < n + 1, m.read (a + k) = (b :: bs)[k]?) ↔
          m.read a = some b ∧ ∀ k < n, m.read (a + 1 + k) = bs[k]? := by
        constructor
        · intro h
          refine ⟨by simpa using h 0 (by omega), fun k hk => ?_⟩
          have := h (k + 1) (by omega)
          rwa [List.getElem?_cons_succ, show a + (k + 1) = a + 1 + k by omega] at this
        · rintro ⟨h0, h⟩ k hk
          cases k with
          | zero => simpa using h0
          | succ k =>
            rw [List.getElem?_cons_succ, show a + (k + 1) = a + 1 + k by omega]
            exact h k (by omega)
      rw [key, List.length_cons]
      constructor
      · intro h
        cases h1 : m.read a with
        | none => simp [h1] at h
        | some x =>
          cases h2 : m.readBytes (a + 1) n with
          | none => simp [h1, h2] at h
          | some ys =>
            simp only [h1, h2, Option.some.injEq, List.cons.injEq] at h
            obtain ⟨rfl, rfl⟩ := h
            obtain ⟨l, r⟩ := (ih (a + 1) ys).1 h2
            exact ⟨by omega, rfl, r⟩
      · rintro ⟨l, h0, h⟩
        rw [h0, (ih (a + 1) bs).2 ⟨by omega, h⟩]

/-- All n bytes are there if every offset is. -/
theorem Memory.readBytes_isSome (m : Memory) (a n : Nat) (h : ∀ k < n, (m.read (a + k)).isSome) :
    ∃ bs, m.readBytes a n = some bs := by
  induction n generalizing a with
  | zero => exact ⟨[], rfl⟩
  | succ n ih =>
    obtain ⟨b, hb⟩ := Option.isSome_iff_exists.1 (h 0 (by omega))
    obtain ⟨bs, hbs⟩ := ih (a + 1) (fun k hk => by
      have := h (k + 1) (by omega)
      rwa [show a + (k + 1) = a + 1 + k by omega] at this)
    exact ⟨b :: bs, by simp only [Memory.readBytes, hbs]; rw [show a = a + 0 by omega, hb]⟩

/-! ### The canonical form -/

/-- The canonical form is: the offsets are strictly rising. -/
theorem Memory.wf_iff (m : Memory) : m.wf = true ↔ (m.map Prod.fst).Pairwise (· < ·) := by
  induction m with
  | nil => simp [Memory.wf]
  | cons c m ih =>
    cases m with
    | nil => simp [Memory.wf]
    | cons c' m =>
      obtain ⟨k, v⟩ := c
      obtain ⟨k', v'⟩ := c'
      simp only [Memory.wf, Bool.and_eq_true, decide_eq_true_eq, ih, List.map_cons, List.pairwise_cons]
      constructor
      · rintro ⟨h1, h2, h3⟩
        refine ⟨fun x hx => ?_, h2, h3⟩
        rcases List.mem_cons.1 hx with rfl | hx
        · exact h1
        · exact Nat.lt_trans h1 (h2 x hx)
      · rintro ⟨h1, h2, h3⟩
        exact ⟨h1 k' (by simp), h2, h3⟩

/-- The offsets after a write are the old ones and the written one. -/
theorem Memory.mem_domain_write (m : Memory) (a : Nat) (b : Byte) (x : Nat) :
    x ∈ (m.write a b).map Prod.fst ↔ x = a ∨ x ∈ m.map Prod.fst := by
  rw [← Memory.read_isSome, ← Memory.read_isSome, Memory.read_write]
  split <;> simp_all

/-- A write keeps the canonical form. -/
theorem Memory.write_wf (m : Memory) (a : Nat) (b : Byte) (h : m.wf = true) : (m.write a b).wf = true := by
  rw [Memory.wf_iff] at h ⊢
  induction m with
  | nil => simp [Memory.write]
  | cons c m ih =>
    obtain ⟨k, v⟩ := c
    simp only [List.map_cons, List.pairwise_cons] at h
    simp only [Memory.write]
    split
    · simp only [List.map_cons, List.pairwise_cons, List.mem_cons]
      refine ⟨fun x hx => ?_, h.1, h.2⟩
      rcases hx with rfl | hx
      · assumption
      · exact Nat.lt_trans (by assumption) (h.1 x hx)
    · split
      · subst_vars; simp only [List.map_cons, List.pairwise_cons]; exact h
      · simp only [List.map_cons, List.pairwise_cons]
        refine ⟨fun x hx => ?_, ih h.2⟩
        rcases (Memory.mem_domain_write m a b x).1 hx with rfl | hx
        · omega
        · exact h.1 x hx

/-- Consecutive writes keep the canonical form. -/
theorem Memory.writeBytes_wf (m : Memory) (a : Nat) (bs : List Byte) (h : m.wf = true) :
    (m.writeBytes a bs).wf = true := by
  induction bs generalizing m a with
  | nil => exact h
  | cons b bs ih => exact ih _ _ (Memory.write_wf m a b h)

/-- A space whose offsets are 0, 1, …, n - 1 has the canonical form. -/
theorem Memory.wf_of_domain (m : Memory) (n : Nat) (h : m.map Prod.fst = List.range n) : m.wf = true := by
  rw [Memory.wf_iff, h]; exact List.pairwise_lt_range

/-- The sequence the host hands over has the canonical form. -/
theorem Memory.ofBytes_wf (bs : List Byte) : (Memory.ofBytes bs).wf = true :=
  Memory.wf_of_domain _ _ (Memory.domain_ofBytes bs)

/-- Reset memory has the canonical form (R32). -/
theorem reset_memory_wf : State.reset.input.wf = true ∧ State.reset.out.wf = true := ⟨rfl, rfl⟩

/-- Writing just past the offsets below n adds the offset n. -/
theorem Memory.domain_write (m : Memory) (n : Nat) (b : Byte) (h : m.map Prod.fst = List.range n) :
    (m.write n b).map Prod.fst = List.range (n + 1) := by
  have gen : ∀ (m : Memory) (n : Nat), (∀ x ∈ m.map Prod.fst, x < n) →
      (m.write n b).map Prod.fst = m.map Prod.fst ++ [n] := by
    intro m
    induction m with
    | nil => intro n _; rfl
    | cons c m ih =>
      intro n hx
      obtain ⟨k, v⟩ := c
      have hk : k < n := hx k (by simp)
      simp only [Memory.write]
      rw [if_neg (by omega), if_neg (by omega)]
      simp [ih n (fun x hm => hx x (by simp at hm ⊢; exact .inr hm))]
  rw [gen m n (by rw [h]; simp), h, List.range_succ]

/-- Appending to a space that holds the offsets below n. -/
theorem Memory.domain_writeBytes (m : Memory) (n : Nat) (bs : List Byte) (h : m.map Prod.fst = List.range n) :
    (m.writeBytes n bs).map Prod.fst = List.range (n + bs.length) := by
  induction bs generalizing m n with
  | nil => exact h
  | cons b bs ih =>
    rw [Memory.writeBytes, ih _ _ (Memory.domain_write m n b h), List.length_cons]
    congr 1; omega

end Sys2Proof.Machine
end

