-- ==== Sys2Proof/Laws/Decoder.lean ====
section
/-! SUPPORT. What a decode step can do (R104 to R113): the guards, one chunk, one repetition, and the common tail, once each. -/
namespace Sys2Proof.Machine

/-- COUNT reaches 0 exactly when one pixel was owed (R20). -/
theorem count_sub_one_eq_zero (n : Count) : n - 1#64 = 0#64 ↔ n = 1#64 := by
  constructor <;> intro h <;> bv_omega

/-- R128: raising. -/
theorem failed_raise (s : State) (e : Err) : Failed s (s.raise e) e := by
  constructor <;> rfl

/-- R129: ignoring. -/
theorem failed_ignore (s : State) : Failed s s.ignore s.err := by
  constructor <;> rfl

/-! ### The guards -/

theorem decodeGuard_held (f : State → Result) (s : State) (h : s.err ≠ .none) :
    decodeGuard f s = .next s.ignore := by
  unfold decodeGuard; rw [if_pos h]

theorem decodeGuard_wrongMode (f : State → Result) (s : State) (he : s.err = .none) (hm : s.mode ≠ .dec) :
    decodeGuard f s = .next (s.raise .command) := by
  unfold decodeGuard; rw [if_neg (by simp [he]), if_pos hm]

theorem decodeGuard_owed (f : State → Result) (s : State) (he : s.err = .none) (hm : s.mode = .dec)
    (hd : s.drun ≠ 0) : decodeGuard f s = repeatPixel s := by
  unfold decodeGuard; rw [if_neg (by simp [he]), if_neg (by simp [hm]), if_pos hd]

theorem decodeGuard_decoding (f : State → Result) (s : State) (h : s.Decoding) : decodeGuard f s = f s := by
  unfold decodeGuard
  rw [if_neg (by simp [h.err]), if_neg (by simp [h.mode]), if_neg (by simp [h.drun])]

/-- What the guards let a decode step be: ignored, failed, a repetition, or the chunk at POS. -/
theorem decodeGuard_cases (f : State → Result) (s : State) :
    (s.err ≠ .none ∧ decodeGuard f s = .next s.ignore) ∨
    (s.err = .none ∧ s.mode ≠ .dec ∧ decodeGuard f s = .next (s.raise .command)) ∨
    (s.err = .none ∧ s.mode = .dec ∧ s.drun ≠ 0 ∧ decodeGuard f s = repeatPixel s) ∨
    (s.Decoding ∧ decodeGuard f s = f s) := by
  by_cases he : s.err = .none
  · by_cases hm : s.mode = .dec
    · by_cases hd : s.drun = 0
      · exact .inr (.inr (.inr ⟨⟨he, hm, hd⟩, decodeGuard_decoding f s ⟨he, hm, hd⟩⟩))
      · exact .inr (.inr (.inl ⟨he, hm, hd, decodeGuard_owed f s he hm hd⟩))
    · exact .inr (.inl ⟨he, hm, decodeGuard_wrongMode f s he hm⟩)
  · exact .inl ⟨he, decodeGuard_held f s he⟩

/-! ### One pixel produced -/

/-- The tail of R104 after POS and DRUN were written. -/
theorem decoded_producePixel (s : State) (px : Pixel) (p : Count) (owed : BitVec 6) (n : Nat)
    (he : s.err = .none) (hm : s.mode = .dec) (hp : p.toNat = s.pos.toNat + n) :
    Decoded s (producePixel px { s with pos := p, drun := owed }) n px owed := by
  constructor <;> simp [count_sub_one_eq_zero, Cache.lookup_update, he, hm, hp]

/-- R111. -/
theorem repeatPixel_next (s : State) (he : s.err = .none) (hm : s.mode = .dec) :
    ∃ t, repeatPixel s = .next t ∧ Decoded s t 0 s.prev (s.drun - 1) :=
  ⟨_, rfl, decoded_producePixel s s.prev s.pos (s.drun - 1) 0 he hm rfl⟩

/-- R112: a chunk that fits is consumed. -/
theorem consumeChunk_next (n : Nat) (px : Pixel) (owed : BitVec 6) (s : State) (he : s.err = .none)
    (hm : s.mode = .dec) (h : s.pos.toNat + n ≤ s.len.toNat) :
    ∃ t, consumeChunk n px owed s = .next t ∧ Decoded s t n px owed := by
  refine ⟨_, by unfold consumeChunk; rw [if_neg (by omega)], ?_⟩
  refine decoded_producePixel s px _ owed n he hm ?_
  have := s.len.isLt
  have hn : n < 2 ^ 64 := by omega
  rw [BitVec.toNat_add, BitVec.toNat_ofNat, Nat.mod_eq_of_lt hn, Nat.mod_eq_of_lt (by omega)]

/-- R112: a chunk that does not fit is a FormatError. -/
theorem consumeChunk_truncated (n : Nat) (px : Pixel) (owed : BitVec 6) (s : State)
    (h : s.len.toNat < s.pos.toNat + n) : consumeChunk n px owed s = .next (s.raise .format) := by
  unfold consumeChunk; rw [if_pos h]

/-! ### Chunks -/

/-- The pixel a chunk yields (R105 to R110). -/
def chunkPixel (s : State) : Chunk → Pixel
  | .index i => s.cache.lookup i
  | .diff dr dg db => Pixel.addDeltas s.prev dr dg db
  | .luma dg du dv => Pixel.addDeltas s.prev (dg + du) dg (dg + dv)
  | .run _ => s.prev
  | .rgb r g b => ⟨r, g, b, s.prev.a⟩
  | .rgba r g b a => ⟨r, g, b, a⟩

/-- The repetitions a chunk leaves owed (R108). -/
def chunkOwed (s : State) : Chunk → BitVec 6
  | .run len => BitVec.ofNat 6 (len - 1)
  | .index _ => s.drun
  | .diff _ _ _ => s.drun
  | .luma _ _ _ => s.drun
  | .rgb _ _ _ => s.drun
  | .rgba _ _ _ _ => s.drun

/-- R104: every chunk is one consumption of its bytes. -/
theorem performChunk_eq (c : Chunk) (s : State) :
    performChunk c s = consumeChunk (encodeChunk c).length (chunkPixel s c) (chunkOwed s c) s := by
  cases c <;> rfl

/-- A chunk's meaning is the DEC_STEP that finds it at POS. -/
theorem exec_toInstr (c : Chunk) (s : State) : exec c.toInstr s = decodeGuard (performChunk c) s := by
  cases c <;> rfl

theorem exec_decStep (s : State) : exec .decStep s = decodeGuard decodeAtPos s := rfl

/-- A chunk that fits, performed. -/
theorem exec_chunk_next (c : Chunk) (s : State) (h : s.Decoding)
    (hl : s.pos.toNat + (encodeChunk c).length ≤ s.len.toNat) :
    ∃ t, exec c.toInstr s = .next t ∧ Decoded s t (encodeChunk c).length (chunkPixel s c) (chunkOwed s c) := by
  rw [exec_toInstr, decodeGuard_decoding _ _ h, performChunk_eq]
  exact consumeChunk_next _ _ _ s h.err h.mode hl

/-- A chunk that does not fit (R112). -/
theorem exec_chunk_truncated (c : Chunk) (s : State) (h : s.Decoding)
    (hl : s.len.toNat < s.pos.toNat + (encodeChunk c).length) :
    ∃ t, exec c.toInstr s = .next t ∧ Failed s t .format := by
  rw [exec_toInstr, decodeGuard_decoding _ _ h, performChunk_eq, consumeChunk_truncated _ _ _ _ hl]
  exact ⟨_, rfl, failed_raise s _⟩

/-! ### Fetching -/

/-- A chunk decodes from exactly the bytes its first byte asks for (R54, R67). -/
theorem decodeChunk_of_length (b0 : Byte) (rest : List Byte) (h : chunkLength b0 ≤ (b0 :: rest).length) :
    ∃ c, decodeChunk (b0 :: rest) = .ok (c, (b0 :: rest).drop (chunkLength b0)) := by
  have hb := b0.isLt
  rw [chunkLength_eq] at h ⊢
  split at h
  · next e =>
    rw [if_pos e]
    obtain rfl : b0 = 0xFE#8 := byte_ext e
    rw [decodeChunk_rgb]
    match rest, h with
    | r :: g :: b :: rest, _ => exact ⟨_, rfl⟩
    | [], h => simp at h
    | [_], h => simp at h
    | [_, _], h => simp at h
  · next e =>
    rw [if_neg e]
    split at h
    · next e2 =>
      rw [if_pos e2]
      obtain rfl : b0 = 0xFF#8 := byte_ext e2
      rw [decodeChunk_rgba]
      match rest, h with
      | r :: g :: b :: a :: rest, _ => exact ⟨_, rfl⟩
      | [], h => simp at h
      | [_], h => simp at h
      | [_, _], h => simp at h
      | [_, _, _], h => simp at h
    · next e2 =>
      rw [if_neg e2]
      split at h
      · next e3 =>
        rw [if_pos e3, decodeChunk_luma _ _ e3]
        match rest, h with
        | b1 :: rest, _ => exact ⟨_, rfl⟩
        | [], h => simp at h
      · next e3 =>
        rw [if_neg e3]
        by_cases h1 : b0.toNat ≤ 0x3F
        · exact ⟨_, decodeChunk_index b0 rest h1⟩
        · by_cases h2 : b0.toNat ≤ 0x7F
          · exact ⟨_, decodeChunk_diff b0 rest ⟨by omega, h2⟩⟩
          · exact ⟨_, decodeChunk_run b0 rest ⟨by omega, by omega⟩⟩

/-- The bytes at POS of a whole chunk, fetched. -/
theorem fetchChunk_ok (s : State) (b0 : Byte) (bytes : List Byte)
    (h0 : s.input.read s.pos.toNat = some b0) (hl : s.pos.toNat + chunkLength b0 ≤ s.len.toNat)
    (hb : s.input.readBytes s.pos.toNat (chunkLength b0) = some bytes) :
    ∃ c, decodeChunk bytes = .ok (c, []) ∧ fetchChunk s = .ok c := by
  have hpos := chunkLength_pos b0
  unfold fetchChunk
  rw [if_neg (by omega), h0]
  simp only
  rw [if_neg (by omega), hb]
  simp only
  -- the fetched bytes begin with b0 and have the chunk's length
  match bytes, hb with
  | [], hb =>
    obtain ⟨l, _⟩ := (Memory.readBytes_eq_some _ _ _ _).1 hb
    simp at l; omega
  | x :: rest, hb =>
    obtain ⟨l, r⟩ := (Memory.readBytes_eq_some _ _ _ _).1 hb
    have := r 0 (by omega)
    rw [Nat.add_zero, h0] at this
    obtain rfl : b0 = x := by simpa using this
    obtain ⟨c, hc⟩ := decodeChunk_of_length b0 rest (by omega)
    rw [← l, List.drop_length] at hc
    exact ⟨c, hc, by rw [hc]⟩

/-- What a fetch can answer (R112). -/
theorem fetchChunk_cases (s : State) :
    (fetchChunk s = .error .truncated ∧
      (s.len.toNat < s.pos.toNat + 1 ∨
        ∃ b0, s.input.read s.pos.toNat = some b0 ∧ s.len.toNat < s.pos.toNat + chunkLength b0)) ∨
    (∃ k, fetchChunk s = .error (.unmapped k)) ∨
    (∃ b0 bytes c, s.input.read s.pos.toNat = some b0 ∧ s.pos.toNat + chunkLength b0 ≤ s.len.toNat ∧
      s.input.readBytes s.pos.toNat (chunkLength b0) = some bytes ∧ decodeChunk bytes = .ok (c, []) ∧
      fetchChunk s = .ok c) := by
  by_cases h1 : s.len.toNat < s.pos.toNat + 1
  · refine .inl ⟨by unfold fetchChunk; rw [if_pos h1], .inl h1⟩
  · cases h0 : s.input.read s.pos.toNat with
    | none => exact .inr (.inl ⟨s.pos.toNat, by unfold fetchChunk; rw [if_neg h1, h0]⟩)
    | some b0 =>
      by_cases h2 : s.len.toNat < s.pos.toNat + chunkLength b0
      · refine .inl ⟨by unfold fetchChunk; rw [if_neg h1, h0]; simp only; rw [if_pos h2], .inr ⟨b0, rfl, h2⟩⟩
      · cases hb : s.input.readBytes s.pos.toNat (chunkLength b0) with
        | none =>
          refine .inr (.inl ⟨s.pos.toNat, ?_⟩)
          unfold fetchChunk; rw [if_neg h1, h0]; simp only; rw [if_neg h2, hb]
        | some bytes =>
          obtain ⟨c, hc, hf⟩ := fetchChunk_ok s b0 bytes h0 (by omega) hb
          exact .inr (.inr ⟨b0, bytes, c, rfl, by omega, hb, hc, hf⟩)

/-- The length of the chunk a byte sequence is. -/
theorem encodeChunk_length_of_decode (b0 : Byte) (rest : List Byte) (c : Chunk) (r : List Byte)
    (h : decodeChunk (b0 :: rest) = .ok (c, r)) : (encodeChunk c).length = chunkLength b0 := by
  have hb := b0.isLt
  rw [chunkLength_eq]
  by_cases h1 : b0.toNat ≤ 0x3F
  · rw [decodeChunk_index _ _ h1] at h
    simp only [Except.ok.injEq, Prod.mk.injEq] at h
    rw [← h.1, if_neg (by omega), if_neg (by omega), if_neg (by omega)]; rfl
  by_cases h2 : b0.toNat ≤ 0x7F
  · rw [decodeChunk_diff _ _ ⟨by omega, h2⟩] at h
    simp only [Except.ok.injEq, Prod.mk.injEq] at h
    rw [← h.1, if_neg (by omega), if_neg (by omega), if_neg (by omega)]; rfl
  by_cases h3 : b0.toNat ≤ 0xBF
  · rw [decodeChunk_luma _ _ ⟨by omega, h3⟩] at h
    cases rest with
    | nil => simp at h
    | cons b1 rest =>
      simp only [Except.ok.injEq, Prod.mk.injEq] at h
      rw [← h.1, if_neg (by omega), if_neg (by omega), if_pos (by omega)]; rfl
  by_cases h4 : b0.toNat ≤ 0xFD
  · rw [decodeChunk_run _ _ ⟨by omega, h4⟩] at h
    simp only [Except.ok.injEq, Prod.mk.injEq] at h
    rw [← h.1, if_neg (by omega), if_neg (by omega), if_neg (by omega)]; rfl
  by_cases h5 : b0.toNat = 0xFE
  · rw [if_pos h5]
    obtain rfl : b0 = 0xFE#8 := byte_ext h5
    rw [decodeChunk_rgb] at h
    match rest, h with
    | r :: g :: b :: rest, h => simp only [Except.ok.injEq, Prod.mk.injEq] at h; rw [← h.1]; rfl
    | [], h => simp at h
    | [_], h => simp at h
    | [_, _], h => simp at h
  · have h6 : b0.toNat = 0xFF := by omega
    rw [if_neg h5, if_pos h6]
    obtain rfl : b0 = 0xFF#8 := byte_ext h6
    rw [decodeChunk_rgba] at h
    match rest, h with
    | r :: g :: b :: a :: rest, h => simp only [Except.ok.injEq, Prod.mk.injEq] at h; rw [← h.1]; rfl
    | [], h => simp at h
    | [_], h => simp at h
    | [_, _], h => simp at h
    | [_, _, _], h => simp at h

/-- What DEC_STEP past its guards can do (R104): a FormatError, a fault where IN has a hole, or the chunk at POS. -/
theorem decodeAtPos_cases (s : State) :
    (decodeAtPos s = .next (s.raise .format) ∧
      (s.len.toNat < s.pos.toNat + 1 ∨
        ∃ b0, s.input.read s.pos.toNat = some b0 ∧ s.len.toNat < s.pos.toNat + chunkLength b0)) ∨
    (∃ k, decodeAtPos s = .fault (.inputUnmapped k)) ∨
    (∃ b0 bytes c, s.input.read s.pos.toNat = some b0 ∧ s.pos.toNat + chunkLength b0 ≤ s.len.toNat ∧
      s.input.readBytes s.pos.toNat (chunkLength b0) = some bytes ∧ decodeChunk bytes = .ok (c, []) ∧
      (encodeChunk c).length = chunkLength b0 ∧ decodeAtPos s = performChunk c s) := by
  unfold decodeAtPos
  rcases fetchChunk_cases s with ⟨h, h'⟩ | ⟨k, h⟩ | ⟨b0, bytes, c, h0, hl, hb, hc, h⟩
  · exact .inl ⟨by rw [h], h'⟩
  · exact .inr (.inl ⟨k, by rw [h]⟩)
  · refine .inr (.inr ⟨b0, bytes, c, h0, hl, hb, hc, ?_, by rw [h]⟩)
    match bytes, hb, hc with
    | [], _, hc => simp [decodeChunk] at hc
    | x :: rest, hb, hc =>
      have hpos := chunkLength_pos b0
      have := ((Memory.readBytes_eq_some _ _ _ _).1 hb).2 0 (by omega)
      rw [Nat.add_zero, h0] at this
      obtain rfl : b0 = x := by simpa using this
      exact encodeChunk_length_of_decode b0 rest c [] hc

/-- Everything a DEC_STEP that answers a next state can have done. -/
theorem exec_decStep_cases (s t : State) (h : exec .decStep s = .next t) :
    (s.err ≠ .none ∧ Failed s t s.err) ∨
    (s.err = .none ∧ s.mode ≠ .dec ∧ Failed s t .command) ∨
    (s.err = .none ∧ s.mode = .dec ∧ s.drun ≠ 0 ∧ Decoded s t 0 s.prev (s.drun - 1)) ∨
    (s.Decoding ∧ Failed s t .format ∧
      (s.len.toNat < s.pos.toNat + 1 ∨
        ∃ b0, s.input.read s.pos.toNat = some b0 ∧ s.len.toNat < s.pos.toNat + chunkLength b0)) ∨
    (s.Decoding ∧ ∃ b0 bytes c, s.input.read s.pos.toNat = some b0 ∧
      s.pos.toNat + chunkLength b0 ≤ s.len.toNat ∧
      s.input.readBytes s.pos.toNat (chunkLength b0) = some bytes ∧ decodeChunk bytes = .ok (c, []) ∧
      Decoded s t (chunkLength b0) (chunkPixel s c) (chunkOwed s c)) := by
  rw [exec_decStep] at h
  rcases decodeGuard_cases decodeAtPos s with ⟨he, hg⟩ | ⟨he, hm, hg⟩ | ⟨he, hm, hd, hg⟩ | ⟨hd, hg⟩
  · rw [hg] at h; cases h; exact .inl ⟨he, failed_ignore s⟩
  · rw [hg] at h; cases h; exact .inr (.inl ⟨he, hm, failed_raise s _⟩)
  · rw [hg] at h
    obtain ⟨u, hu, d⟩ := repeatPixel_next s he hm
    rw [hu] at h; cases h
    exact .inr (.inr (.inl ⟨he, hm, hd, d⟩))
  · rw [hg] at h
    rcases decodeAtPos_cases s with ⟨ha, hw⟩ | ⟨k, ha⟩ | ⟨b0, bytes, c, h0, hl, hb, hc, hlen, ha⟩
    · rw [ha] at h; cases h
      exact .inr (.inr (.inr (.inl ⟨hd, failed_raise s _, hw⟩)))
    · rw [ha] at h; cases h
    · rw [ha, performChunk_eq] at h
      obtain ⟨u, hu, d⟩ := consumeChunk_next (encodeChunk c).length (chunkPixel s c) (chunkOwed s c) s hd.err
        hd.mode (by omega)
      rw [hu] at h; cases h
      exact .inr (.inr (.inr (.inr ⟨hd, b0, bytes, c, h0, hl, hb, hc, hlen ▸ d⟩)))

end Sys2Proof.Machine
end

