-- ==== Sys2Proof/Laws/Encoder.lean ====
section
/-! SUPPORT. What an ENC_PIXEL can do (R88 to R102), once each: the guards, the run path, the differing path. -/
namespace Sys2Proof.Machine

/-! ### The guards of R88 -/

theorem execEncPixel_held (p : Pixel) (s : State) (h : s.err ≠ .none) : execEncPixel p s = .next s.ignore := by
  unfold execEncPixel; rw [if_pos h]

theorem execEncPixel_done (p : Pixel) (s : State) (he : s.err = .none) (hm : s.mode = .encDone) :
    execEncPixel p s = .next (s.raise .validation) := by
  unfold execEncPixel; rw [if_neg (by simp [he]), if_pos hm]

theorem execEncPixel_wrongMode (p : Pixel) (s : State) (he : s.err = .none) (hm : s.mode ≠ .encDone)
    (hm' : s.mode ≠ .enc) : execEncPixel p s = .next (s.raise .command) := by
  unfold execEncPixel; rw [if_neg (by simp [he]), if_neg hm, if_pos hm']

theorem execEncPixel_encoding (p : Pixel) (s : State) (h : s.Encoding) :
    execEncPixel p s = encodeWithRoom (effectivePixel s.chan4 p) s := by
  unfold execEncPixel
  rw [if_neg (by simp [h.err]), if_neg (by simp [h.mode]), if_neg (by simp [h.mode])]

/-! ### Room in OUT (R33) -/

theorem exec_encPixel_room (q : Pixel) (s : State) (h : s.Encoding)
    (hr : s.hasRoom (pixelBytes (effectivePixel s.chan4 q) s).length) :
    exec (.encPixel q) s = .next (encodePixel (effectivePixel s.chan4 q) s) := by
  show execEncPixel q s = _
  rw [execEncPixel_encoding q s h]
  unfold encodeWithRoom; rw [if_pos hr]

theorem exec_encPixel_full (q : Pixel) (s : State) (h : s.Encoding)
    (hr : ¬ s.hasRoom (pixelBytes (effectivePixel s.chan4 q) s).length) :
    exec (.encPixel q) s = .fault .outputFull := by
  show execEncPixel q s = _
  rw [execEncPixel_encoding q s h]
  unfold encodeWithRoom; rw [if_neg hr]

/-! ### One pixel encoded -/

/-- The end of an ENC_PIXEL that encodes (R88), after CACHE, RUN and PREV were written. -/
theorem encoded_finishPixel (s : State) (p : Pixel) (bytes : List Byte) (run : BitVec 6) (h : s.Encoding)
    (hr : s.hasRoom bytes.length) :
    Encoded s (finishPixel bytes { s.update p with run := run, prev := p }) p bytes run := by
  constructor <;>
    simp [count_sub_one_eq_zero, Cache.lookup_update, h.err, h.mode, Memory.read_writeBytes]
  · exact hr
  · intro k hk h'; omega
  · intro a ha h1 h2; omega

/-- The RUN chunk's byte is the flush byte of R92. -/
theorem runBytes_eq (run : BitVec 6) (h : 1 ≤ run.toNat) : runBytes run = [flushByte run.toNat] := by
  have hr := run.isLt
  unfold runBytes encodeChunk flushByte
  refine congrArg (fun b : Byte => [b]) (BitVec.eq_of_toNat_eq ?_)
  refine (runByte_toNat _).trans ?_
  show 192 + (BitVec.ofNat 6 (run.toNat - 1)).toNat = (0xC0#8 ||| BitVec.ofNat 8 (run.toNat - 1)).toNat
  rw [BitVec.toNat_or, BitVec.toNat_ofNat, BitVec.toNat_ofNat, BitVec.toNat_ofNat]
  have e1 : (run.toNat - 1) % 2 ^ 6 = run.toNat - 1 := Nat.mod_eq_of_lt (by omega)
  have e2 : (run.toNat - 1) % 2 ^ 8 = run.toNat - 1 := Nat.mod_eq_of_lt (by omega)
  have e3 := Nat.two_pow_add_eq_or_of_lt (i := 6) (b := run.toNat - 1) (by omega) 3
  rw [e1, e2]
  simpa using e3

/-- R92: a pixel equal to PREV. -/
theorem encodeRunPixel_encoded (s : State) (h : s.Encoding) (hr : s.hasRoom (runPixelBytes s).length) :
    Encoded s (encodeRunPixel s.prev s) s.prev (runPixelBytes s) (if runCloses s then 0 else s.run + 1) :=
  encoded_finishPixel s s.prev _ _ h hr

/-- R92: the run is closed at 62 pixels or at the image's last pixel. -/
theorem runCloses_iff (s : State) (hr : s.run.toNat ≤ 61) :
    runCloses s = true ↔ s.run.toNat + 1 = 62 ∨ s.count = 1 := by
  have hn : (s.run + 1).toNat = s.run.toNat + 1 := by
    rw [BitVec.toNat_add]; simp; omega
  simp only [runCloses, hn, Bool.or_eq_true, decide_eq_true_eq]

/-- R92: a pixel that closes the run emits its flush byte. -/
theorem runPixelBytes_closed (s : State) (hr : s.run.toNat ≤ 61) (hc : runCloses s = true) :
    runPixelBytes s = [flushByte (s.run.toNat + 1)] := by
  have hn : (s.run + 1).toNat = s.run.toNat + 1 := by
    rw [BitVec.toNat_add]; simp; omega
  unfold runPixelBytes
  rw [if_pos hc, runBytes_eq _ (by omega), hn]

/-- R92: a pixel that leaves the run open emits nothing. -/
theorem runPixelBytes_open (s : State) (hc : ¬ runCloses s = true) : runPixelBytes s = [] := by
  unfold runPixelBytes; rw [if_neg hc]

/-- R100: at most one byte on the run path. -/
theorem runPixelBytes_length (s : State) : (runPixelBytes s).length ≤ 1 := by
  unfold runPixelBytes; split <;> simp [runBytes, encodeChunk]

/-- R94: the image's last pixel closes the run. -/
theorem runCloses_last (s : State) (h : s.count = 1) : runCloses s = true := by simp [runCloses, h]

/-- R93: the flush before a differing pixel. -/
theorem flushBytes_eq (run : BitVec 6) : (if run = 0 then [] else runBytes run) = flushBytes run := by
  unfold flushBytes
  split
  · rfl
  · next h =>
    refine runBytes_eq run ?_
    have : run.toNat ≠ 0 := fun e => h (BitVec.eq_of_toNat_eq (by simpa using e))
    omega

theorem differingBytes_eq (p : Pixel) (s : State) :
    differingBytes p s = flushBytes s.run ++ encodeChunk (selectChunk s.cache s.prev p) := by
  unfold differingBytes; rw [flushBytes_eq]

/-- R88: a pixel that differs from PREV. -/
theorem encodeDifferingPixel_encoded (s : State) (p : Pixel) (h : s.Encoding)
    (hr : s.hasRoom (differingBytes p s).length) :
    Encoded s (encodeDifferingPixel p s) p (differingBytes p s) 0 :=
  encoded_finishPixel s p _ 0 h hr

theorem pixelBytes_equal (p : Pixel) (s : State) (hp : p = s.prev) : pixelBytes p s = runPixelBytes s := by
  unfold pixelBytes; rw [if_pos hp]

theorem pixelBytes_differing (p : Pixel) (s : State) (hp : p ≠ s.prev) : pixelBytes p s = differingBytes p s := by
  unfold pixelBytes; rw [if_neg hp]

/-- R88, R101: any pixel encoded where OUT has room, with the run it leaves open. -/
theorem encodePixel_encoded (s : State) (p : Pixel) (h : s.Encoding) (hr : s.hasRoom (pixelBytes p s).length) :
    Encoded s (encodePixel p s) p (pixelBytes p s) (if p = s.prev ∧ ¬ runCloses s = true then s.run + 1 else 0) := by
  unfold encodePixel
  by_cases hp : p = s.prev
  · rw [pixelBytes_equal p s hp] at hr ⊢
    rw [if_pos hp, hp]
    have := encodeRunPixel_encoded s h hr
    by_cases hc : runCloses s = true
    · rw [if_pos hc] at this; rwa [if_neg (fun x => x.2 hc)]
    · rw [if_neg hc] at this; rwa [if_pos ⟨rfl, hc⟩]
  · rw [pixelBytes_differing p s hp] at hr ⊢
    rw [if_neg hp, if_neg (fun x => hp x.1)]
    exact encodeDifferingPixel_encoded s p h hr

/-- ENC_PIXEL of a pixel equal to PREV (R92). -/
theorem exec_encPixel_equal (q : Pixel) (s : State) (h : s.Encoding) (hp : effectivePixel s.chan4 q = s.prev)
    (hr : s.hasRoom (runPixelBytes s).length) : exec (.encPixel q) s = .next (encodeRunPixel s.prev s) := by
  rw [exec_encPixel_room q s h (by rwa [pixelBytes_equal _ s hp]), hp]
  unfold encodePixel; rw [if_pos rfl]

/-- ENC_PIXEL of a pixel that differs from PREV (R88). -/
theorem exec_encPixel_differing (q : Pixel) (s : State) (h : s.Encoding)
    (hp : effectivePixel s.chan4 q ≠ s.prev) (hr : s.hasRoom (differingBytes (effectivePixel s.chan4 q) s).length) :
    exec (.encPixel q) s = .next (encodeDifferingPixel (effectivePixel s.chan4 q) s) := by
  rw [exec_encPixel_room q s h (by rwa [pixelBytes_differing _ s hp])]
  unfold encodePixel; rw [if_neg hp]

/-- Everything an ENC_PIXEL can do. -/
theorem exec_encPixel_cases (q : Pixel) (s : State) :
    (s.err ≠ .none ∧ exec (.encPixel q) s = .next s.ignore) ∨
    (s.err = .none ∧ s.mode = .encDone ∧ exec (.encPixel q) s = .next (s.raise .validation)) ∨
    (s.err = .none ∧ s.mode ≠ .encDone ∧ s.mode ≠ .enc ∧ exec (.encPixel q) s = .next (s.raise .command)) ∨
    (s.Encoding ∧ ¬ s.hasRoom (pixelBytes (effectivePixel s.chan4 q) s).length ∧
      exec (.encPixel q) s = .fault .outputFull) ∨
    (s.Encoding ∧ ∃ t run, exec (.encPixel q) s = .next t ∧
      Encoded s t (effectivePixel s.chan4 q) (pixelBytes (effectivePixel s.chan4 q) s) run) := by
  by_cases he : s.err = .none
  · by_cases hd : s.mode = .encDone
    · exact .inr (.inl ⟨he, hd, execEncPixel_done q s he hd⟩)
    · by_cases hm : s.mode = .enc
      · by_cases hr : s.hasRoom (pixelBytes (effectivePixel s.chan4 q) s).length
        · exact .inr (.inr (.inr (.inr ⟨⟨he, hm⟩, _, _, exec_encPixel_room q s ⟨he, hm⟩ hr,
            encodePixel_encoded s _ ⟨he, hm⟩ hr⟩)))
        · exact .inr (.inr (.inr (.inl ⟨⟨he, hm⟩, hr, exec_encPixel_full q s ⟨he, hm⟩ hr⟩)))
      · exact .inr (.inr (.inl ⟨he, hd, hm, execEncPixel_wrongMode q s he hd hm⟩))
  · exact .inl ⟨he, execEncPixel_held q s he⟩

/-! ### The selector -/

/-- R95. -/
theorem selectChunk_index (c : Cache) (prev p : Pixel) (h : c.lookup (hash p) = p) :
    selectChunk c prev p = .index (hash p) := by
  unfold selectChunk; rw [if_pos ((Cache.hit_iff c p).2 h)]

/-- R98. -/
theorem selectChunk_rgba (c : Cache) (prev p : Pixel) (h : c.lookup (hash p) ≠ p) (ha : p.a ≠ prev.a) :
    selectChunk c prev p = .rgba p.r p.g p.b p.a := by
  unfold selectChunk; rw [if_neg (fun e => h ((Cache.hit_iff c p).1 e)), if_pos ha]

/-- R96, R97, R99: the three chunks of a cache miss with alpha unchanged. -/
theorem selectChunk_colour (c : Cache) (prev p : Pixel) (h : c.lookup (hash p) ≠ p) (ha : p.a = prev.a) :
    selectChunk c prev p =
      colourChunk p (delta p.r prev.r) (delta p.g prev.g) (delta p.b prev.b) := by
  unfold selectChunk; rw [if_neg (fun e => h ((Cache.hit_iff c p).1 e)), if_neg (by simp [ha])]

/-- The DIFF guard as a proposition. -/
theorem diffFits_iff (dr dg db : Int) :
    diffFits dr dg db = true ↔ -2 ≤ dr ∧ dr ≤ 1 ∧ -2 ≤ dg ∧ dg ≤ 1 ∧ -2 ≤ db ∧ db ≤ 1 := by
  simp [diffFits, and_assoc]

/-- The LUMA guard as a proposition. -/
theorem lumaFits_iff (dr dg db : Int) :
    lumaFits dr dg db = true ↔
      -32 ≤ dg ∧ dg ≤ 31 ∧ -8 ≤ dr - dg ∧ dr - dg ≤ 7 ∧ -8 ≤ db - dg ∧ db - dg ≤ 7 := by
  simp [lumaFits, and_assoc]

end Sys2Proof.Machine
end

