-- ==== Sys2Proof/Laws/PerInstr.lean ====
section
/-! SUPPORT. Per instruction: the words of a well-formed instruction match its row of spec/opcode_table.json, in length and in the
fixed bits of the first byte. -/
namespace Sys2Proof.Laws.EncodeMatchesRow

/-- The words have the row's length, and the first of them matches the row (mask, pattern and excluded bytes). -/
def Statement (i : Instr) : Prop :=
  i.wf = true → (encode i).length = i.row.length ∧ ∃ b0 rest, encode i = b0 :: rest ∧ i.row.accepts b0 = true

theorem index_byte : ∀ i : Slot, (Instr.index 0).row.accepts (0b00#2 ++ i : BitVec (2 + 6)) = true := by decide

theorem diff_byte :
    ∀ x y z : BitVec 2, (Instr.diff 0 0 0).row.accepts (0b01#2 ++ x ++ y ++ z : BitVec (2 + 2 + 2 + 2)) = true := by decide

theorem luma_byte : ∀ x : BitVec 6, (Instr.luma 0 0 0).row.accepts (0b10#2 ++ x : BitVec (2 + 6)) = true := by decide

theorem run_byte :
    ∀ k : Fin 62, (Instr.run 1).row.accepts (0b11#2 ++ BitVec.ofNat 6 k.val : BitVec (2 + 6)) = true := by decide

theorem index (i : Slot) : Statement (.index i) := fun _ => ⟨rfl, _, _, rfl, index_byte i⟩

theorem diff (dr dg db : Int) : Statement (.diff dr dg db) := fun _ => ⟨rfl, _, _, rfl, diff_byte _ _ _⟩

theorem luma (dg du dv : Int) : Statement (.luma dg du dv) := fun _ => ⟨rfl, _, _, rfl, luma_byte _⟩

theorem run (len : Nat) : Statement (.run len) := by
  intro h
  simp only [Instr.wf, Chunk.wf, decide_eq_true_eq] at h
  exact ⟨rfl, _, _, rfl, run_byte ⟨len - 1, by omega⟩⟩

theorem rgb (r g b : Byte) : Statement (.rgb r g b) := fun _ => ⟨rfl, _, _, rfl, by simp [Row.accepts, Instr.row]⟩

theorem rgba (r g b a : Byte) : Statement (.rgba r g b a) := fun _ => ⟨rfl, _, _, rfl, by simp [Row.accepts, Instr.row]⟩

theorem encStart (c : Bool) (n : Count) : Statement (.encStart c n) := fun _ => ⟨rfl, _, _, rfl, by cases c <;> simp [Row.accepts, Instr.row]⟩

theorem encPixel (p : Pixel) : Statement (.encPixel p) := fun _ => ⟨rfl, _, _, rfl, by simp [Row.accepts, Instr.row]⟩

theorem decStart (n : Count) (bytes : List Byte) : Statement (.decStart n bytes) := fun _ => ⟨rfl, _, _, rfl, by simp [Row.accepts, Instr.row]⟩

theorem decStep : Statement .decStep := fun _ => ⟨rfl, _, _, rfl, rfl⟩

/-- R62: every byte matches exactly one chunk row of the table. -/
theorem one_chunk_row : ∀ b : Byte, (chunkRows.filter fun row => row.accepts b).length = 1 := by decide

/-- R71, R72: a byte matches a command row of the table exactly if it is one of the five legal command bytes, and then one. -/
theorem one_command_row : ∀ b : Byte, (commandRows.filter fun row => row.accepts b).length =
    if b ∈ [0x01#8, 0x11#8, 0x02#8, 0x03#8, 0x04#8] then 1 else 0 := by decide

end Sys2Proof.Laws.EncodeMatchesRow
end

