-- ==== Sys2Proof/Laws/Step.lean ====
section
/-! SUPPORT. A step, by what stands next on the ports (R44, R71, R72, R140, R141), and the host's commands issued one at a time
(R120, R121). -/
namespace Sys2Proof.Machine

/-- With nothing on the ports (R140). -/
theorem step_nil (s : State) (h : s.port = []) : step s = .next s := by
  unfold step; rw [h]

/-- The next moment of the inputs, performed. -/
theorem step_cons (s : State) (x : PortInput) (rest : List PortInput) (h : s.port = x :: rest) :
    step s = performInput x { s with port := rest } := by
  unfold step; rw [h]

/-- The step of every state: nothing, a reset, an idle moment, a command, an illegal byte. -/
theorem step_cases (s : State) :
    (s.port = [] ∧ step s = .next s) ∨
    ∃ x rest, s.port = x :: rest ∧
      ((x.reset = true ∧ step s = .next { State.reset with port := rest }) ∨
       (x.reset = false ∧ x.command = none ∧ step s = .next { s with port := rest }) ∨
       (∃ c i, x.reset = false ∧ x.command = some c ∧ decodeCommand c = .ok i ∧
          step s = exec i { s with port := rest }) ∨
       (∃ c e, x.reset = false ∧ x.command = some c ∧ decodeCommand c = .error e ∧
          step s = illegalCommand { s with port := rest })) := by
  cases hp : s.port with
  | nil => exact .inl ⟨rfl, step_nil s hp⟩
  | cons x rest =>
    refine .inr ⟨x, rest, rfl, ?_⟩
    rw [step_cons s x rest hp]
    unfold performInput
    cases hr : x.reset with
    | true => exact .inl ⟨rfl, rfl⟩
    | false =>
      cases hc : x.command with
      | none => exact .inr (.inl ⟨rfl, rfl, rfl⟩)
      | some c =>
        unfold performCommand
        cases hd : decodeCommand c with
        | ok i => exact .inr (.inr (.inl ⟨c, i, rfl, rfl, hd, by simp [hd]⟩))
        | error e => exact .inr (.inr (.inr ⟨c, e, rfl, rfl, hd, by simp [hd]⟩))

/-- The illegal command byte's two cases (R72, R129). -/
theorem illegalCommand_cases (s : State) :
    (s.err ≠ .none ∧ illegalCommand s = .next s.ignore) ∨
    (s.err = .none ∧ illegalCommand s = .next (s.raise .command)) := by
  unfold illegalCommand
  by_cases h : s.err = .none
  · exact .inr ⟨h, by rw [if_neg (by simp [h])]⟩
  · exact .inl ⟨h, by rw [if_pos h]⟩

/-! ### Commands issued by the host -/

/-- A command the decoder accepts, issued. -/
theorem issue_ok (c : Command) (i : Instr) (s : State) (h : decodeCommand c = .ok i) :
    issue c s = exec i { s with port := [] } := by
  unfold issue
  rw [step_cons _ _ _ rfl]
  simp [performInput, performCommand, h]

theorem issue_encStart (c : Bool) (n : Count) (s : State) :
    issue (encStartCommand c n) s = exec (.encStart c n) { s with port := [] } :=
  issue_ok _ _ s (by cases c <;> simp [decodeCommand, encStartCommand])

theorem issue_encPixel (p : Pixel) (s : State) :
    issue (encPixelCommand p) s = exec (.encPixel p) { s with port := [] } :=
  issue_ok _ _ s (by simp [decodeCommand, encPixelCommand])

theorem issue_decStart (n : Count) (bytes : List Byte) (s : State) :
    issue (decStartCommand n bytes) s = exec (.decStart n bytes) { s with port := [] } :=
  issue_ok _ _ s (by simp [decodeCommand, decStartCommand])

theorem issue_decStep (s : State) : issue decStepCommand s = exec .decStep { s with port := [] } :=
  issue_ok _ _ s (by simp [decodeCommand, decStepCommand])

end Sys2Proof.Machine
end

