-- ==== Sys2Proof/Tests/Slice0.lean ====
section
/-! SUPPORT. The model's own tests. Expected values come from spec/95_test_vectors.md and the examples of the rules, by the number
each test names; and one theorem per statement with hypotheses shows a state that meets all of them. -/
namespace Sys2Proof.Tests

open Sys2Proof Sys2Proof.Machine

/-! ### Small states -/

/-- An encoding pass with `n` pixels owed, after a pixel `prev` and with `run` pixels of an open run. -/
def encoding (n : Count) (prev : Pixel) (run : BitVec 6) : State :=
  { State.reset with mode := .enc, chan4 := true, count := n, prev := prev, run := run }

/-- A decoding pass over `bytes` with `n` pixels owed, after a pixel `prev`. -/
def decoding (n : Count) (prev : Pixel) (bytes : List Byte) : State :=
  { State.reset with
    mode := .dec, count := n, prev := prev, input := Memory.ofBytes bytes, len := BitVec.ofNat 64 bytes.length }

/-- The same state with a pixel in its cache slot. -/
def caching (p : Pixel) (s : State) : State := s.update p

/-- The same state with a command next on the port. -/
def issuing (c : Command) (s : State) : State := { s with port := [⟨false, some c⟩] }

/-- What the host and the next command see of a result: the response, PREV, RUN, DRUN, POS and COUNT. -/
def seen (r : Result) : Option (Option Response × Pixel × BitVec 6 × BitVec 6 × Count × Count) :=
  (nextState r).map fun t => (t.response, t.prev, t.run, t.drun, t.pos, t.count)

/-- The seed pixel of R17. -/
def seed : Pixel := pix 0 0 0 255

/-! ### Ill-formed instructions are refused (R55 to R58, R22) -/

theorem test_wf_diff_red : (Instr.diff 2 0 0).wf = false ∧ (Instr.diff (-3) 0 0).wf = false := by decide

theorem test_wf_diff_green : (Instr.diff 0 2 0).wf = false ∧ (Instr.diff 0 (-3) 0).wf = false := by decide

theorem test_wf_diff_blue : (Instr.diff 0 0 2).wf = false ∧ (Instr.diff 0 0 (-3)).wf = false := by decide

theorem test_wf_luma_green : (Instr.luma 32 0 0).wf = false ∧ (Instr.luma (-33) 0 0).wf = false := by decide

theorem test_wf_luma_red : (Instr.luma 0 8 0).wf = false ∧ (Instr.luma 0 (-9) 0).wf = false := by decide

theorem test_wf_luma_blue : (Instr.luma 0 0 8).wf = false ∧ (Instr.luma 0 0 (-9)).wf = false := by decide

theorem test_wf_run : (Instr.run 0).wf = false ∧ (Instr.run 63).wf = false := by decide

theorem test_wf_dec_start_too_long : ∃ bytes : List Byte, (Instr.decStart 1 bytes).wf = false :=
  ⟨List.replicate (2 ^ 64) 0#8, decide_eq_false fun h => Nat.lt_irrefl _ (List.length_replicate ▸ h)⟩

/-- The bounds themselves are accepted. -/
theorem test_wf_bounds :
    (Instr.diff (-2) 1 (-2)).wf = true ∧ (Instr.luma 31 7 (-8)).wf = true ∧ (Instr.luma (-32) (-8) 7).wf = true ∧
    (Instr.run 1).wf = true ∧ (Instr.run 62).wf = true := by decide

/-! ### Words written out from the encodings (R55 to R60, R71) -/

theorem test_decode_index : decodeChunk [0b00100001#8] = .ok (.index 33, []) := rfl

theorem test_decode_diff : decodeChunk [0b01011010#8] = .ok (.diff (-1) 0 0, []) := rfl

theorem test_decode_luma : decodeChunk [0b10111111#8, 0b11110000#8] = .ok (.luma 31 7 (-8), []) := rfl

theorem test_decode_run : decodeChunk [0b11111101#8] = .ok (.run 62, []) := rfl

theorem test_decode_rgb :
    decodeChunk [0b11111110#8, 0x64#8, 0x00#8, 0x01#8, 0x76#8] = .ok (.rgb 100 0 1, [0x76#8]) := rfl

theorem test_decode_rgba :
    decodeChunk [0b11111111#8, 0xC8#8, 0x64#8, 0x32#8, 0xFF#8] = .ok (.rgba 200 100 50 255, []) := rfl

theorem test_decode_enc_start :
    decodeCommand ⟨0b00000001#8, 0, 64, []⟩ = .ok (.encStart false 64) ∧
    decodeCommand ⟨0b00010001#8, 0, 64, []⟩ = .ok (.encStart true 64) := ⟨rfl, rfl⟩

theorem test_decode_enc_pixel :
    decodeCommand ⟨0b00000010#8, 0xC96332FF#32, 0, []⟩ = .ok (.encPixel (pix 201 99 50 255)) := rfl

theorem test_decode_dec_start :
    decodeCommand ⟨0b00000011#8, 0, 2, [0xFE#8, 1#8, 2#8]⟩ = .ok (.decStart 2 [0xFE#8, 1#8, 2#8]) := rfl

theorem test_decode_dec_step : decodeCommand ⟨0b00000100#8, 0, 0, []⟩ = .ok .decStep := rfl

/-- V2.8.9, V2.8.10, V2.8.13: illegal command bytes. -/
theorem test_decode_illegal_commands :
    decodeCommand ⟨0x00#8, 0, 0, []⟩ = .error .illegalOp ∧ decodeCommand ⟨0x05#8, 0, 0, []⟩ = .error .illegalOp ∧
    decodeCommand ⟨0x0F#8, 0, 0, []⟩ = .error .illegalOp ∧ decodeCommand ⟨0x21#8, 0, 0, []⟩ = .error .reservedBits ∧
    decodeCommand ⟨0x81#8, 0, 0, []⟩ = .error .reservedBits ∧
    decodeCommand ⟨0x12#8, 0, 0, []⟩ = .error .strayChannelBit ∧
    decodeCommand ⟨0x14#8, 0, 0, []⟩ = .error .strayChannelBit := ⟨rfl, rfl, rfl, rfl, rfl, rfl, rfl⟩

/-- V2.7.1 to V2.7.4: truncated chunks. -/
theorem test_decode_truncated :
    decodeChunk [] = .error .outOfBytes ∧ decodeChunk [0x80#8] = .error .outOfBytes ∧
    decodeChunk [0xFE#8, 1#8, 2#8] = .error .outOfBytes ∧ decodeChunk [0xFF#8, 1#8, 2#8, 3#8] = .error .outOfBytes :=
  ⟨rfl, rfl, rfl, rfl⟩

/-- The table's rows, their words in the table's numbering of bits. -/
theorem test_table_words :
    decodeTableWord 8 0x3F = some (.index 63) ∧ decodeTableWord 8 0x76 = some (.diff 1 (-1) 0) ∧
    decodeTableWord 16 0xA8A0 = some (.luma 0 2 0) ∧ decodeTableWord 8 0xC5 = some (.run 6) ∧
    decodeTableWord 32 0x1E140AFE = some (.rgb 10 20 30) ∧
    decodeTableWord 40 0x04030201FF = some (.rgba 1 2 3 4) ∧
    decodeTableWord 8 0x11 = some (.encStart true 0) ∧ decodeTableWord 8 0x02 = some (.encPixel (pix 0 0 0 0)) ∧
    decodeTableWord 8 0x03 = some (.decStart 0 []) ∧ decodeTableWord 8 0x04 = some .decStep := by decide

/-- Two such words placed and stepped from reset: V2.5.3's LUMA, and V2.8.4's ENC_PIXEL in IDLE. -/
theorem test_fetch_word :
    seen (step (State.reset.withFetchWord 16 0xA8A0)) =
      some (some ⟨0x04#8, [], some 0x020000FF#32⟩, pix 2 0 0 255, 0, 0, 2, 0) ∧
    seen (step (State.reset.withFetchWord 8 0x02)) = some (some ⟨0x18#8, [], none⟩, seed, 0, 0, 0, 0) := ⟨by decide, by decide⟩

/-! ### One step of each instruction -/

/-- V2.5.1: a slot never written. -/
theorem test_index_clear_slot :
    seen (exec (.index 5) (decoding 1 seed [0x05#8])) =
      some (some ⟨0x04#8, [], some 0x00000000#32⟩, pix 0 0 0 0, 0, 0, 1, 0) := by decide

/-- V2.5.10, third step: the slot's pixel. -/
theorem test_index_cached :
    seen (exec (.index 9) (caching (pix 10 20 30 255) (decoding 2 (pix 11 19 30 255) [0x09#8]))) =
      some (some ⟨0x03#8, [], some 0x0A141EFF#32⟩, pix 10 20 30 255, 0, 0, 1, 1) := by decide

/-- V2.5.2: the green channel wraps from 0 to 255. -/
theorem test_diff_wraps :
    seen (exec (.diff 1 (-1) 0) (decoding 1 seed [0x76#8])) =
      some (some ⟨0x04#8, [], some 0x01FF00FF#32⟩, pix 1 255 0 255, 0, 0, 1, 0) := by decide

/-- V2.5.11, second step: alpha is kept. -/
theorem test_diff_keeps_alpha :
    seen (exec (.diff (-1) (-1) (-1)) (decoding 1 (pix 0 0 0 0) [0x55#8])) =
      some (some ⟨0x04#8, [], some 0xFFFFFF00#32⟩, pix 255 255 255 0, 0, 0, 1, 0) := by decide

/-- V2.5.6: dr = db = -40. -/
theorem test_luma_low :
    seen (exec (.luma (-32) (-8) (-8)) (decoding 1 seed [0x80#8, 0x00#8])) =
      some (some ⟨0x04#8, [], some 0xD8E0D8FF#32⟩, pix 216 224 216 255, 0, 0, 2, 0) := by decide

/-- V2.7.2: the second byte is missing. -/
theorem test_luma_truncated :
    seen (exec (.luma 0 0 0) (decoding 1 seed [0x80#8])) = some (some ⟨0x13#8, [], none⟩, seed, 0, 0, 0, 1) := by decide

/-- V2.6.2, first step: 61 repetitions are owed. -/
theorem test_run_owes :
    seen (exec (.run 62) (decoding 2 seed [0xFD#8])) =
      some (some ⟨0x03#8, [], some 0x000000FF#32⟩, seed, 0, 61, 1, 1) := by decide

/-- D19, R113: a run longer than the image. -/
theorem test_run_past_the_image :
    seen (exec (.run 62) (decoding 1 seed [0xFD#8])) =
      some (some ⟨0x04#8, [], some 0x000000FF#32⟩, seed, 0, 0, 1, 0) := by decide

/-- R109's example. -/
theorem test_rgb :
    seen (exec (.rgb 1 2 3) (decoding 1 (pix 5 5 5 128) [0xFE#8, 1#8, 2#8, 3#8])) =
      some (some ⟨0x04#8, [], some 0x01020380#32⟩, pix 1 2 3 128, 0, 0, 4, 0) := by decide

/-- R110's example. -/
theorem test_rgba :
    seen (exec (.rgba 1 2 3 4) (decoding 1 seed [0xFF#8, 1#8, 2#8, 3#8, 4#8])) =
      some (some ⟨0x04#8, [], some 0x01020304#32⟩, pix 1 2 3 4, 0, 0, 5, 0) := by decide

/-- R86's example, after a decode. -/
theorem test_enc_start :
    seen (exec (.encStart true 4) (decoding 1 (pix 1 2 3 4) [0xC0#8])) =
      some (some ⟨0x01#8, [], none⟩, seed, 0, 0, 0, 4) := by decide

/-- V2.8.1: no pixels. -/
theorem test_enc_start_zero :
    seen (exec (.encStart true 0) State.reset) = some (some ⟨0x08#8, [], none⟩, seed, 0, 0, 0, 0) := by decide

/-- V2.2.7: every LUMA field at an extreme. -/
theorem test_enc_pixel_luma :
    seen (exec (.encPixel (pix 38 31 23 255)) (encoding 1 seed 0)) =
      some (some ⟨0x02#8, [0xBF#8, 0xF0#8], none⟩, pix 38 31 23 255, 0, 0, 0, 0) := by decide

/-- V2.2.17, second pixel: the open run is flushed before the RGB chunk. -/
theorem test_enc_pixel_flush :
    seen (exec (.encPixel (pix 10 20 30 255)) (encoding 2 seed 1)) =
      some (some ⟨0x01#8, [0xC0#8, 0xFE#8, 0x0A#8, 0x14#8, 0x1E#8], none⟩, pix 10 20 30 255, 0, 0, 0, 1) := by decide

/-- R103's example, after an encode. -/
theorem test_dec_start :
    seen (exec (.decStart 1 [0xC0#8]) (encoding 7 (pix 1 2 3 4) 5)) =
      some (some ⟨0x03#8, [], none⟩, seed, 0, 0, 0, 1) := by decide

/-- V2.8.5: no pixels. -/
theorem test_dec_start_zero :
    seen (exec (.decStart 0 []) State.reset) = some (some ⟨0x10#8, [], none⟩, seed, 0, 0, 0, 0) := by decide

/-- V2.6.1, second step: a repetition moves no POS. -/
theorem test_dec_step_repeats :
    seen (exec .decStep { decoding 2 seed [0xC2#8] with pos := 1, drun := 2 }) =
      some (some ⟨0x03#8, [], some 0x000000FF#32⟩, seed, 0, 1, 1, 1) := by decide

/-- V2.7.3: a truncated RGB chunk. -/
theorem test_dec_step_truncated :
    seen (exec .decStep (decoding 1 seed [0xFE#8, 0x01#8, 0x02#8])) =
      some (some ⟨0x13#8, [], none⟩, seed, 0, 0, 0, 1) := by decide

/-! ### Whole-machine rules -/

/-- The table of 95_test_vectors.md §2.1. -/
theorem test_hash :
    hash (pix 0 0 0 255) = 53 ∧ hash (pix 255 255 255 255) = 38 ∧ hash (pix 1 2 3 4) = 14 ∧
    hash (pix 200 100 50 255) = 31 ∧ hash (pix 255 255 255 0) = 49 ∧ hash (pix 1 0 0 255) = 56 := by decide

/-- R28's numbering of the STATUS byte: the table of 95_test_vectors.md. -/
theorem test_status_byte :
    statusByte .encDone .validation = 0x0A#8 ∧ statusByte .dec .format = 0x13#8 ∧
    statusByte .decDone .command = 0x1C#8 := by decide

/-- R130: reset wins over a command issued with it. -/
theorem test_reset_wins :
    (nextState (step { encoding 3 (pix 1 2 3 4) 5 with port := [⟨true, some (encStartCommand true 1)⟩] })).map
      (fun t => (t.mode, t.count, t.prev, t.response)) = some (.idle, 0, seed, none) := by decide

/-- V2.8.9: an illegal byte, and V2.8.2: under a held error nothing new is reported. -/
theorem test_illegal_byte :
    seen (step (issuing ⟨0x00#8, 0, 0, []⟩ State.reset)) = some (some ⟨0x18#8, [], none⟩, seed, 0, 0, 0, 0) ∧
    seen (step (issuing ⟨0x00#8, 0, 0, []⟩ { State.reset with err := .validation })) =
      some (some ⟨0x08#8, [], none⟩, seed, 0, 0, 0, 0) := ⟨by decide, by decide⟩

/-! ### Witnesses: a state and operands that meet all the hypotheses of each statement -/

/-- The states the witnesses use pass the guards. -/
theorem encoding_guards (n : Count) (prev : Pixel) (run : BitVec 6) : (encoding n prev run).Encoding := ⟨rfl, rfl⟩

theorem decoding_guards (n : Count) (prev : Pixel) (bytes : List Byte) : (decoding n prev bytes).Decoding :=
  ⟨rfl, rfl, rfl⟩

/-- The invariant holds in a state inside an encoding pass with an open run and a byte in OUT. -/
theorem encoding_inv : State.Inv { encoding 2 (pix 1 2 3 4) 61 with out := [(0, 0xFD#8)], outLen := 1 } := by
  constructor <;> decide

/-- The invariant holds in a state inside a decoding pass at its second chunk. -/
theorem decoding_inv : State.Inv { decoding 2 seed [0x76#8, 0x00#8] with pos := 1 } := by
  constructor <;> decide

theorem witness_ChunkDecodeInvertsEncode :
    (Chunk.diff (-2) 1 0).wf = true ∧ (Chunk.luma (-32) 7 (-8)).wf = true ∧ (Chunk.run 62).wf = true := by decide

theorem witness_ChunkEncodeInvertsDecode :
    decodeChunk [0xBF#8, 0xF0#8, 0x01#8] = .ok (.luma 31 7 (-8), [0x01#8]) := rfl

theorem witness_CommandDecodeInvertsEncode : ∀ c : Chunk, Instr.encStart true 3 ≠ c.toInstr := by
  intro c; cases c <;> simp [Chunk.toInstr]

/-- Both ends of every range of the first-byte map. -/
theorem witness_FirstByteMap :
    (0x3F#8).toNat ≤ 0x3F ∧ (0x40 ≤ (0x40#8).toNat ∧ (0x7F#8).toNat ≤ 0x7F) ∧
    (0x80 ≤ (0x80#8).toNat ∧ (0xBF#8).toNat ≤ 0xBF) ∧ (0xC0 ≤ (0xC0#8).toNat ∧ (0xFD#8).toNat ≤ 0xFD) ∧
    (0xFE#8).toNat = 0xFE ∧ (0xFF#8).toNat = 0xFF := by decide

theorem witness_OnlyMissingBytesFailToDecode :
    chunkLength 0xFE#8 ≤ [0xFE#8, 1#8, 2#8, 3#8].length ∧ [0xFE#8, 1#8, 2#8].length < chunkLength 0xFE#8 := by decide

theorem witness_LegalCommandBytes : 0x12#8 ∉ [0x01#8, 0x11#8, 0x02#8, 0x03#8, 0x04#8] := by decide

theorem witness_CacheUpdateWritesOneSlot : (9 : Slot) ≠ hash (pix 1 2 3 4) := by decide

theorem witness_ResetInputWins :
    State.port { encoding 2 seed 5 with port := [⟨true, some decStepCommand⟩, ⟨false, none⟩] } =
      ⟨true, some decStepCommand⟩ :: [⟨false, none⟩] := rfl

theorem witness_NoCommandHoldsState :
    State.port (encoding 2 seed 5) = [] ∧
    State.port { encoding 2 seed 5 with port := [⟨false, none⟩] } = ⟨false, none⟩ :: [] := ⟨rfl, rfl⟩

theorem witness_StepPerformsDecodedCommand :
    (issuing (encPixelCommand (pix 1 2 3 4)) (encoding 2 seed 5)).port =
      ⟨false, some (encPixelCommand (pix 1 2 3 4))⟩ :: [] ∧
    decodeCommand (encPixelCommand (pix 1 2 3 4)) = .ok (.encPixel (pix 1 2 3 4)) := ⟨rfl, rfl⟩

/-- A LUMA chunk in the middle of IN. -/
def lumaAtOne : State := issuing decStepCommand { decoding 2 seed [0x76#8, 0xA0#8, 0xA8#8] with pos := 1 }

theorem witness_DecStepPerformsChunkAtPos :
    lumaAtOne.port = ⟨false, some decStepCommand⟩ :: [] ∧ decStepCommand.cmd = 0x04#8 ∧
    lumaAtOne.input.readBytes lumaAtOne.pos.toNat [0xA0#8, 0xA8#8].length = some [0xA0#8, 0xA8#8] ∧
    decodeChunk [0xA0#8, 0xA8#8] = .ok (.luma 0 2 0, []) ∧
    lumaAtOne.pos.toNat + [0xA0#8, 0xA8#8].length ≤ lumaAtOne.len.toNat := ⟨rfl, rfl, rfl, rfl, by decide⟩

theorem witness_IllegalCommandByteRaisesCommandError :
    (issuing ⟨0xFF#8, 0, 0, []⟩ (encoding 2 seed 5)).port = ⟨false, some ⟨0xFF#8, 0, 0, []⟩⟩ :: [] ∧
    0xFF#8 ∉ [0x01#8, 0x11#8, 0x02#8, 0x03#8, 0x04#8] := ⟨rfl, by decide⟩

theorem witness_DecStartInitialises : [0xC0#8].length < 2 ^ 64 := by decide

theorem witness_DecStartRefusesUnholdableInput : ∃ bytes : List Byte, 2 ^ 64 ≤ bytes.length :=
  ⟨List.replicate (2 ^ 64) 0#8, Nat.le_of_eq List.length_replicate.symm⟩

theorem witness_StartForgetsThePast :
    (∃ t, exec (.encStart true 3) (encoding 2 seed 5) = .next t) ∧
    ∃ t, exec (.decStart 3 [0xC0#8]) (encoding 2 seed 5) = .next t := ⟨⟨_, rfl⟩, ⟨_, rfl⟩⟩

/-- A held error, with an illegal byte on the port, and with a START that changes it. -/
theorem witness_HeldErrorIsSticky :
    State.port { issuing ⟨0x05#8, 0, 0, []⟩ State.reset with err := .format } = ⟨false, some ⟨0x05#8, 0, 0, []⟩⟩ :: [] ∧
    0x05#8 ∉ [0x01#8, 0x11#8, 0x02#8, 0x03#8, 0x04#8] ∧
    State.err { issuing (encStartCommand true 1) State.reset with err := .format } ≠ .none ∧
    (nextState (step { issuing (encStartCommand true 1) State.reset with err := .format })).map State.err =
      some .none := by decide

theorem witness_ValidationErrorCauses :
    State.err { encoding 0 seed 0 with mode := .encDone } = .none ∧
    State.mode { encoding 0 seed 0 with mode := .encDone } = .encDone ∧
    (nextState (exec (.encPixel seed) { encoding 0 seed 0 with mode := .encDone })).map State.err =
      some .validation := by decide

/-- A state of each mode the clauses name, with an illegal byte on the port. -/
theorem witness_CommandErrorCauses :
    State.reset.err = .none ∧ State.reset.mode = .idle ∧ State.reset.mode ≠ .dec ∧
    (decoding 2 seed []).err = .none ∧ (decoding 2 seed []).mode = .dec ∧
    State.err { State.reset with mode := .decDone } = .none ∧ State.mode { State.reset with mode := .decDone } = .decDone ∧
    (encoding 2 seed 0).err = .none ∧ (encoding 2 seed 0).mode ≠ .dec ∧
    State.mode { State.reset with mode := .encDone } ≠ .dec ∧ State.mode { State.reset with mode := .decDone } ≠ .dec ∧
    (issuing ⟨0x05#8, 0, 0, []⟩ State.reset).port = ⟨false, some ⟨0x05#8, 0, 0, []⟩⟩ :: [] ∧
    0x05#8 ∉ [0x01#8, 0x11#8, 0x02#8, 0x03#8, 0x04#8] := by decide

/-- IN empty, and IN one byte short of an RGBA chunk. -/
theorem witness_TruncatedChunkRaisesFormatError :
    (decoding 1 seed []).Decoding ∧ (decoding 1 seed []).len.toNat < (decoding 1 seed []).pos.toNat + 1 ∧
    (decoding 1 seed [0xFF#8, 1#8, 2#8, 3#8]).Decoding ∧
    (decoding 1 seed [0xFF#8, 1#8, 2#8, 3#8]).input.read 0 = some 0xFF#8 ∧
    (decoding 1 seed [0xFF#8, 1#8, 2#8, 3#8]).len.toNat < 0 + 5 :=
  ⟨⟨rfl, rfl, rfl⟩, by decide, ⟨rfl, rfl, rfl⟩, rfl, by decide⟩

/-- IN with and without the bytes after the chunk at POS. -/
theorem witness_DecStepReadsOnlyItsChunk :
    (∀ a, a < 3 → a < chunkLength 0xA0#8 →
      (Memory.ofBytes [0xA0#8, 0xA8#8]).read a = (decoding 1 seed [0xA0#8, 0xA8#8, 0x76#8]).input.read a) ∧
    (nextState (exec .decStep (decoding 1 seed [0xA0#8, 0xA8#8, 0x76#8]))).isSome = true := by decide

/-- A state for every row of the mode table: COUNT 1 and 2, a chunk inside IN and not, repetitions owed. -/
theorem witness_ModeTransitions :
    (decoding 1 seed [0xC0#8]).mode = .dec ∧ (decoding 1 seed [0xC0#8]).input.read 0 = some 0xC0#8 ∧
    0 + chunkLength 0xC0#8 ≤ (decoding 1 seed [0xC0#8]).len.toNat ∧
    State.drun { decoding 2 seed [0xC2#8] with pos := 1, drun := 2 } ≠ 0 ∧
    (decoding 2 seed []).input.read 0 = none ∧ (decoding 2 seed []).drun = 0 ∧
    (encoding 1 seed 0).mode = .enc ∧ (encoding 2 seed 0).count ≠ 1 ∧
    State.mode { encoding 0 seed 0 with mode := .encDone } = .encDone := by decide

/-- A command of each shape that answers a next state, without and with an error. -/
theorem witness_ResponseReportsOutcome :
    (nextState (exec (.encPixel (pix 1 2 3 4)) (encoding 2 seed 3))).map State.err = some .none ∧
    (nextState (exec .decStep (decoding 1 seed [0xC0#8]))).map State.err = some .none ∧
    (nextState (exec (.rgb 1 2 3) (decoding 1 seed [0xFE#8]))).map State.err = some .format ∧
    (nextState (exec (.encStart true 0) (encoding 2 seed 3))).map State.err = some .validation := by decide

/-- Channel-3 mode in a state that meets the invariant. -/
theorem witness_ChannelModeForcesAlpha :
    State.Encoding { encoding 2 seed 0 with chan4 := false } ∧ State.Inv { encoding 2 seed 0 with chan4 := false } :=
  ⟨⟨rfl, rfl⟩, by constructor <;> decide⟩

/-- A run at 61, at the last pixel, and at neither. -/
theorem witness_EqualPixelExtendsRun :
    (encoding 2 seed 61).Encoding ∧ (encoding 2 seed 61).run.toNat ≤ 61 ∧
    effectivePixel (encoding 2 seed 61).chan4 seed = (encoding 2 seed 61).prev ∧
    (encoding 2 seed 61).run.toNat + 1 = 62 ∧ (encoding 2 seed 61).hasRoom 1 ∧ (encoding 1 seed 0).count = 1 ∧
    (encoding 2 seed 0).run.toNat + 1 ≠ 62 ∧ (encoding 2 seed 0).count ≠ 1 :=
  ⟨encoding_guards 2 seed 61, by decide, rfl, by decide, by decide, rfl, by decide, by decide⟩

/-- A pixel in its slot, with a run open. -/
theorem witness_CachedPixelEmitsIndex :
    (caching (pix 10 20 30 255) (encoding 2 seed 3)).Encoding ∧
    pix 10 20 30 255 = effectivePixel (caching (pix 10 20 30 255) (encoding 2 seed 3)).chan4 (pix 10 20 30 255) ∧
    pix 10 20 30 255 ≠ (caching (pix 10 20 30 255) (encoding 2 seed 3)).prev ∧
    (caching (pix 10 20 30 255) (encoding 2 seed 3)).cache.lookup (hash (pix 10 20 30 255)) = pix 10 20 30 255 ∧
    (caching (pix 10 20 30 255) (encoding 2 seed 3)).hasRoom ((flushBytes 3).length + 1) :=
  ⟨⟨rfl, rfl⟩, by decide, by decide, by decide, by decide⟩

/-- The deltas -2 (by wrapping, as in V2.2.5) and 1, the ends of DIFF's range. -/
theorem witness_SmallDeltaEmitsDiff :
    (encoding 2 seed 0).Encoding ∧ pix 254 1 1 255 = effectivePixel (encoding 2 seed 0).chan4 (pix 254 1 1 255) ∧
    pix 254 1 1 255 ≠ (encoding 2 seed 0).prev ∧
    (encoding 2 seed 0).cache.lookup (hash (pix 254 1 1 255)) ≠ pix 254 1 1 255 ∧
    (pix 254 1 1 255).a = (encoding 2 seed 0).prev.a ∧
    (-2 : Int) = delta (pix 254 1 1 255).r (encoding 2 seed 0).prev.r ∧
    (1 : Int) = delta (pix 254 1 1 255).g (encoding 2 seed 0).prev.g ∧
    (1 : Int) = delta (pix 254 1 1 255).b (encoding 2 seed 0).prev.b ∧
    (encoding 2 seed 0).hasRoom ((flushBytes 0).length + 1) :=
  ⟨encoding_guards 2 seed 0, by decide, by decide, by decide, by decide, by decide, by decide, by decide, by decide⟩

/-- V2.2.7: dg = 31, dr - dg = 7, db - dg = -8, the ends of LUMA's ranges, and no DIFF since dr = 38. -/
theorem witness_MediumDeltaEmitsLuma :
    (encoding 2 seed 0).Encoding ∧ pix 38 31 23 255 = effectivePixel (encoding 2 seed 0).chan4 (pix 38 31 23 255) ∧
    pix 38 31 23 255 ≠ (encoding 2 seed 0).prev ∧
    (encoding 2 seed 0).cache.lookup (hash (pix 38 31 23 255)) ≠ pix 38 31 23 255 ∧
    (pix 38 31 23 255).a = (encoding 2 seed 0).prev.a ∧
    (38 : Int) = delta (pix 38 31 23 255).r (encoding 2 seed 0).prev.r ∧
    (31 : Int) = delta (pix 38 31 23 255).g (encoding 2 seed 0).prev.g ∧
    (23 : Int) = delta (pix 38 31 23 255).b (encoding 2 seed 0).prev.b ∧
    (encoding 2 seed 0).hasRoom ((flushBytes 0).length + 2) :=
  ⟨encoding_guards 2 seed 0, by decide, by decide, by decide, by decide, by decide, by decide, by decide, by decide⟩

/-- V2.2.13, with a run open. -/
theorem witness_ChangedAlphaEmitsRgba :
    (encoding 2 seed 3).Encoding ∧ pix 0 0 0 128 = effectivePixel (encoding 2 seed 3).chan4 (pix 0 0 0 128) ∧
    pix 0 0 0 128 ≠ (encoding 2 seed 3).prev ∧
    (encoding 2 seed 3).cache.lookup (hash (pix 0 0 0 128)) ≠ pix 0 0 0 128 ∧
    (pix 0 0 0 128).a ≠ (encoding 2 seed 3).prev.a ∧ (encoding 2 seed 3).hasRoom ((flushBytes 3).length + 5) :=
  ⟨encoding_guards 2 seed 3, by decide, by decide, by decide, by decide, by decide⟩

/-- V2.2.9: dr = dg = db = 32, one past the end of LUMA's range. -/
theorem witness_LargeDeltaEmitsRgb :
    (encoding 2 seed 0).Encoding ∧ pix 32 32 32 255 = effectivePixel (encoding 2 seed 0).chan4 (pix 32 32 32 255) ∧
    pix 32 32 32 255 ≠ (encoding 2 seed 0).prev ∧
    (encoding 2 seed 0).cache.lookup (hash (pix 32 32 32 255)) ≠ pix 32 32 32 255 ∧
    (pix 32 32 32 255).a = (encoding 2 seed 0).prev.a ∧
    (32 : Int) = delta (pix 32 32 32 255).r (encoding 2 seed 0).prev.r ∧
    (32 : Int) = delta (pix 32 32 32 255).g (encoding 2 seed 0).prev.g ∧
    (32 : Int) = delta (pix 32 32 32 255).b (encoding 2 seed 0).prev.b ∧
    (encoding 2 seed 0).hasRoom ((flushBytes 0).length + 4) :=
  ⟨encoding_guards 2 seed 0, by decide, by decide, by decide, by decide, by decide, by decide, by decide, by decide⟩

/-- The last byte OUT has an offset for. -/
theorem witness_EveryPixelIsEncoded :
    State.Encoding { encoding 1 seed 61 with outLen := 0xFFFFFFFFFFFFFFFE#64 } ∧
    State.hasRoom { encoding 1 seed 61 with outLen := 0xFFFFFFFFFFFFFFFE#64 }
      (pixelBytes (effectivePixel true seed) { encoding 1 seed 61 with outLen := 0xFFFFFFFFFFFFFFFE#64 }).length :=
  ⟨⟨rfl, rfl⟩, by decide⟩

/-- One byte more. -/
theorem witness_FullOutputStopsEncPixel :
    State.Encoding { encoding 1 seed 61 with outLen := 0xFFFFFFFFFFFFFFFF#64 } ∧
    2 ^ 64 ≤ (0xFFFFFFFFFFFFFFFF#64).toNat +
      (pixelBytes (effectivePixel true seed) { encoding 1 seed 61 with outLen := 0xFFFFFFFFFFFFFFFF#64 }).length :=
  ⟨⟨rfl, rfl⟩, by decide⟩

/-- Six bytes: an open run flushed before an RGBA chunk. -/
theorem witness_EmittedByteCount :
    (encoding 2 seed 3).Encoding ∧
    ((nextState (exec (.encPixel (pix 1 2 3 4)) (encoding 2 seed 3))).bind State.response).map
      (fun r => r.bytes.length) = some 6 := ⟨encoding_guards 2 seed 3, by decide⟩

theorem witness_AlphaChangeIsIndexOrRgba :
    (encoding 2 seed 3).Encoding ∧ pix 0 0 0 0 = effectivePixel (encoding 2 seed 3).chan4 (pix 0 0 0 0) ∧
    (pix 0 0 0 0).a ≠ (encoding 2 seed 3).prev.a ∧
    (encoding 2 seed 3).hasRoom ((flushBytes 3).length +
      if (encoding 2 seed 3).cache.lookup (hash (pix 0 0 0 0)) = pix 0 0 0 0 then 1 else 5) :=
  ⟨encoding_guards 2 seed 3, by decide, by decide, by decide⟩

theorem witness_SelectorFollowsPriorityOrder :
    (38 : Int) = delta (pix 38 31 23 255).r seed.r ∧ (31 : Int) = delta (pix 38 31 23 255).g seed.g ∧
    (23 : Int) = delta (pix 38 31 23 255).b seed.b := by decide

theorem witness_LastPixelLeavesNoRun :
    (encoding 1 seed 61).Encoding ∧ (encoding 1 seed 61).count = 1 ∧
    (encoding 1 seed 61).hasRoom (pixelBytes (effectivePixel true seed) (encoding 1 seed 61)).length :=
  ⟨⟨rfl, rfl⟩, rfl, by decide⟩

theorem witness_DeltasWrapSigned : (-128 : Int) ≤ -128 ∧ (-128 : Int) ≤ 127 ∧ (127 : Int) ≤ 127 := by decide

theorem witness_EqualPixelsEmitRuns :
    (encoding 130 seed 0).Encoding ∧ (encoding 130 seed 0).run = 0 ∧
    (encoding 130 seed 0).count = BitVec.ofNat 64 130 ∧
    effectivePixel (encoding 130 seed 0).chan4 seed = (encoding 130 seed 0).prev ∧
    (encoding 130 seed 0).hasRoom (runsChunks 130).length := ⟨⟨rfl, rfl⟩, rfl, rfl, rfl, by decide⟩

/-- Every length of a chunk, wholly and exactly inside IN: the premises of the six chunk statements. -/
theorem witness_ChunkInsideInput :
    (decoding 1 seed [0x05#8]).Decoding ∧
    (decoding 1 seed [0x05#8]).pos.toNat + 1 ≤ (decoding 1 seed [0x05#8]).len.toNat ∧
    (decoding 1 seed [0xA0#8, 0xA8#8]).pos.toNat + 2 ≤ (decoding 1 seed [0xA0#8, 0xA8#8]).len.toNat ∧
    (decoding 1 seed [0xFE#8, 1#8, 2#8, 3#8]).pos.toNat + 4 ≤ (decoding 1 seed [0xFE#8, 1#8, 2#8, 3#8]).len.toNat ∧
    (decoding 1 seed [0xFF#8, 1#8, 2#8, 3#8, 4#8]).pos.toNat + 5 ≤
      (decoding 1 seed [0xFF#8, 1#8, 2#8, 3#8, 4#8]).len.toNat :=
  ⟨⟨rfl, rfl, rfl⟩, by decide, by decide, by decide, by decide⟩

/-- One byte short of each length: the other clause of the six chunk statements. -/
theorem witness_ChunkNotInsideInput :
    (decoding 1 seed []).Decoding ∧
    (decoding 1 seed []).len.toNat < (decoding 1 seed []).pos.toNat + 1 ∧
    (decoding 1 seed [0xA0#8]).len.toNat < (decoding 1 seed [0xA0#8]).pos.toNat + 2 ∧
    (decoding 1 seed [0xFE#8, 1#8, 2#8]).len.toNat < (decoding 1 seed [0xFE#8, 1#8, 2#8]).pos.toNat + 4 ∧
    (decoding 1 seed [0xFF#8, 1#8, 2#8, 3#8]).len.toNat < (decoding 1 seed [0xFF#8, 1#8, 2#8, 3#8]).pos.toNat + 5 :=
  ⟨⟨rfl, rfl, rfl⟩, by decide, by decide, by decide, by decide⟩

theorem witness_RunDecodesFirstPixel :
    (decoding 1 seed [0xFD#8]).Decoding ∧ 1 ≤ 62 ∧ 62 ≤ 62 ∧
    (decoding 1 seed [0xFD#8]).pos.toNat + 1 ≤ (decoding 1 seed [0xFD#8]).len.toNat :=
  ⟨⟨rfl, rfl, rfl⟩, by decide, by decide, by decide⟩

theorem witness_OwedRepetitionReturnsPrev :
    State.err { decoding 2 seed [0xC2#8] with drun := 61 } = .none ∧
    State.mode { decoding 2 seed [0xC2#8] with drun := 61 } = .dec ∧
    State.drun { decoding 2 seed [0xC2#8] with drun := 61 } ≠ 0 := by decide

theorem witness_DecStepProducesPixel :
    State.Inv { decoding 2 seed [0x76#8, 0x00#8] with pos := 1 } ∧
    State.Decoding { decoding 2 seed [0x76#8, 0x00#8] with pos := 1 } ∧
    (decoding 2 seed [0x76#8, 0x00#8]).input.read 1 = some 0x00#8 ∧
    1 + chunkLength 0x00#8 ≤ (decoding 2 seed [0x76#8, 0x00#8]).len.toNat :=
  ⟨decoding_inv, ⟨rfl, rfl, rfl⟩, rfl, by decide⟩

/-- The last pixel inside a run that is longer than the image. -/
theorem witness_LastPixelEndsDecode :
    (decoding 1 seed [0xFD#8]).err = .none ∧ (decoding 1 seed [0xFD#8]).mode = .dec ∧
    (decoding 1 seed [0xFD#8]).count = 1 ∧
    (nextState (exec .decStep (decoding 1 seed [0xFD#8]))).map State.err = some .none := by decide

/-- A step from a state that meets the invariant: its second chunk decoded. -/
theorem witness_StepKeepsInvariant :
    State.Inv { decoding 2 seed [0x76#8, 0x00#8] with pos := 1, port := [decStepInput] } ∧
    (nextState (step { decoding 2 seed [0x76#8, 0x00#8] with pos := 1, port := [decStepInput] })).map State.pos =
      some 2 := ⟨by constructor <;> decide, by decide⟩

theorem witness_CacheHoldsPrevAfterPixel :
    (nextState (exec .decStep (decoding 1 seed [0xC0#8]))).map State.err = some .none ∧
    (nextState (exec .decStep (decoding 1 seed []))).map State.err = some .format ∧
    (nextState (exec (.encPixel seed) (encoding 1 seed 0))).map State.err = some .none := by decide

theorem witness_StepKeepsMemoryCanonical :
    (decoding 1 seed [0xC0#8, 0x01#8]).input.wf = true ∧ Memory.wf [(0, 0xC0#8), (1, 0x00#8)] = true ∧
    Memory.wf [(1, 0xC0#8), (1, 0x00#8)] = false := by decide

/-- The pixel's chunk is a DIFF, and IN has its one byte; or the pixel is PREV, and its chunk a RUN. -/
theorem witness_SelectedChunkReconstructsPixel :
    (decoding 1 seed [0x76#8]).Decoding ∧ pix 1 255 0 255 ≠ (decoding 1 seed [0x76#8]).prev ∧
    seed = (decoding 1 seed [0xFD#8]).prev ∧
    Chunk.diff 1 (-1) 0 = selectChunk (decoding 1 seed [0x76#8]).cache (decoding 1 seed [0x76#8]).prev (pix 1 255 0 255) ∧
    (decoding 1 seed [0x76#8]).pos.toNat + (encodeChunk (.diff 1 (-1) 0)).length ≤
      (decoding 1 seed [0x76#8]).len.toNat := ⟨⟨rfl, rfl, rfl⟩, by decide, rfl, by decide, by decide⟩

/-- A pass of two pixels (the second ends the first's run), its stream short enough for LEN. -/
theorem witness_EncoderAndDecoderStayInLockstep :
    0 < [seed, pix 10 20 30 255].length ∧
    (nextState (issueAll (encStartCommand true (BitVec.ofNat 64 2) :: [seed, pix 10 20 30 255].map encPixelCommand)
      State.reset)).map (fun e => e.out.map Prod.snd) = some [0xC0#8, 0xFE#8, 0x0A#8, 0x14#8, 0x1E#8] ∧
    ([0xC0#8, 0xFE#8, 0x0A#8, 0x14#8, 0x1E#8] ++ endMarker).length < 2 ^ 64 := by decide

/-- An Image of two pixels. -/
def twoPixels : Image := ⟨2, 1, .three, 1, [pix 1 2 3 4, pix 1 2 3 200]⟩

/-- V2.4.1's chunks: both pixels are taken with alpha 255. -/
theorem witness_DecodeInvertsEncode :
    twoPixels.width ≠ 0 ∧ twoPixels.height ≠ 0 ∧ twoPixels.pixels.length = twoPixels.area := by decide

/-- Its stream after the four bytes of MAGIC. -/
theorem witness_StreamLayout :
    (hostEncode twoPixels State.reset).toOption.map (fun r => r.1.drop 4) =
      some [0#8, 0#8, 0#8, 2#8, 0#8, 0#8, 0#8, 1#8, 3#8, 1#8, 0xA2#8, 0x79#8, 0xC0#8,
        0#8, 0#8, 0#8, 0#8, 0#8, 0#8, 0#8, 1#8] := by decide

theorem witness_HostEncodeRejectsInvalidImage :
    (⟨0, 1, .three, 0, []⟩ : Image).width = 0 ∧ (⟨1, 0, .three, 0, []⟩ : Image).height = 0 ∧
    (⟨1, 1, .three, 0, []⟩ : Image).pixels.length ≠ (⟨1, 1, .three, 0, []⟩ : Image).area := by decide

/-- A stream for each clause: too short, a wrong magic, a bad channel byte, a bad colorspace byte, zero width, zero height. -/
theorem witness_HostDecodeRejectsBadHeader :
    (be32 Config.magic ++ List.replicate 9 1#8).length < 14 ∧
    (be32 (Config.magic + 1) ++ List.replicate 10 1#8).take 4 ≠ be32 Config.magic ∧
    (be32 Config.magic ++ [0, 0, 0, 1, 0, 0, 0, 1, 5, 0])[12]? = some 5#8 ∧
    (be32 Config.magic ++ [0, 0, 0, 1, 0, 0, 0, 1, 4, 2])[13]? = some 2#8 ∧
    (be32 Config.magic ++ [0, 0, 0, 0, 0, 0, 0, 1, 4, 0]).take 8 =
      (be32 Config.magic ++ [0, 0, 0, 0, 0, 0, 0, 1, 4, 0]).take 4 ++ [0, 0, 0, 0] ∧
    (be32 Config.magic ++ [0, 0, 0, 1, 0, 0, 0, 0, 4, 0]).take 12 =
      (be32 Config.magic ++ [0, 0, 0, 1, 0, 0, 0, 0, 4, 0]).take 8 ++ [0, 0, 0, 0] := by
  refine ⟨by simp [be32], ?_, rfl, rfl, rfl, rfl⟩
  intro h
  have h0 : ∀ m : BitVec 8, m + 1 ≠ m := by decide
  have h1 : (Config.magic + 1).extractLsb' 0 8 = Config.magic.extractLsb' 0 8 := by
    simpa [be32] using (List.cons.inj (List.cons.inj (List.cons.inj (List.cons.inj h).2).2).2).1
  have h2 : (Config.magic + 1).extractLsb' 0 8 = Config.magic.extractLsb' 0 8 + 1 := by
    apply BitVec.eq_of_toNat_eq
    simp [BitVec.extractLsb'_toNat, BitVec.toNat_add]
  exact h0 _ (h2.symm.trans h1)

end Sys2Proof.Tests
end

section
/-! PROOFS. The invariant of command boundaries (`State.Inv`): it holds at reset, and each thing a step can do keeps it. What a step
can do is said by `step_cases`, `exec_decStep_cases` and `exec_encPixel_cases`; here stands one rule per outcome: a command that
fails (R128, R129), a START (R86, R103), a pixel encoded (R88), a pixel decoded (R104). -/
namespace Sys2Proof

/-! ### What the decoders can answer -/

/-- R63: a field of w bits read with a bias. -/
theorem unbias_range {w : Nat} (field : BitVec w) (bias : Int) :
    -bias ≤ unbias field bias ∧ unbias field bias < 2 ^ w - bias := by
  have hf : (field.toNat : Int) < 2 ^ w := by exact_mod_cast field.isLt
  unfold unbias
  omega

theorem decodeDiff_wf (b0 : Byte) : (decodeDiff b0).wf = true := by
  have hr := unbias_range (b0.extractLsb' 4 2) 2
  have hg := unbias_range (b0.extractLsb' 2 2) 2
  have hb := unbias_range (b0.extractLsb' 0 2) 2
  simp only [decodeDiff, Chunk.wf, Bool.and_eq_true, decide_eq_true_eq]
  omega

theorem decodeLuma_wf (b0 b1 : Byte) : (decodeLuma b0 b1).wf = true := by
  have hg := unbias_range (b0.extractLsb' 0 6) 32
  have hu := unbias_range (b1.extractLsb' 4 4) 8
  have hv := unbias_range (b1.extractLsb' 0 4) 8
  simp only [decodeLuma, Chunk.wf, Bool.and_eq_true, decide_eq_true_eq]
  omega

/-- R58: the bytes 0xFE and 0xFF, which would be runs of 63 and 64, are no RUN. -/
theorem decodeRun_wf (b0 : Byte) (h : 0xC0 ≤ b0.toNat ∧ b0.toNat ≤ 0xFD) : (decodeRun b0).wf = true := by
  have hf := toNat_field b0 0 6
  simp only [decodeRun, Chunk.wf, decide_eq_true_eq]
  omega

/-- R55 to R60: the operands of every decoded chunk are in range. -/
theorem decodeChunk_wf (bytes : List Byte) (c : Chunk) (rest : List Byte) (h : decodeChunk bytes = .ok (c, rest)) :
    c.wf = true := by
  cases bytes with
  | nil => cases h
  | cons b0 tail =>
    simp only [decodeChunk] at h
    split at h
    · split at h <;> cases h
      rfl
    · next hrgb =>
      split at h
      · split at h <;> cases h
        rfl
      · next hrgba =>
        split at h
        · cases h
          rfl
        · next hindex =>
          split at h
          · cases h
            exact decodeDiff_wf b0
          · next hdiff =>
            split at h
            · split at h <;> cases h
              exact decodeLuma_wf b0 _
            · next hluma =>
              cases h
              simp only [← BitVec.toNat_inj, tag_toNat, BitVec.toNat_ofNat] at hrgb hrgba hindex hdiff hluma
              exact decodeRun_wf b0 (by omega)

/-- R71: the commands the port can carry. -/
theorem decodeCommand_cases (c : Command) (i : Instr) (h : decodeCommand c = .ok i) :
    (∃ chan4, i = .encStart chan4 c.n) ∨ (∃ p, i = .encPixel p) ∨ i = .decStart c.n c.input ∨ i = .decStep := by
  unfold decodeCommand at h
  repeat' split at h
  all_goals cases h
  · exact .inl ⟨_, rfl⟩
  · exact .inr (.inl ⟨_, rfl⟩)
  · exact .inr (.inr (.inl rfl))
  · exact .inr (.inr (.inr rfl))

end Sys2Proof

namespace Sys2Proof.Machine

/-! ### Reset, the ports, and commands that fail -/

/-- R32: the reset state meets the invariant. -/
theorem reset_inv : State.reset.Inv where
  inputDomain := rfl
  outDomain := rfl
  posLe := Nat.le_refl _
  runLe := by decide
  drunLe := by decide
  runOnlyEnc := fun h => absurd rfl h
  drunOnlyDec := fun h => absurd rfl h
  countBusy := by decide
  cacheHome := fun i => .inl (Cache.lookup_clear i)
  opaqueAlpha := fun _ _ => rfl

/-- The invariant does not speak of the inputs still to come. -/
theorem State.Inv.withPort {s : State} (h : s.Inv) (ports : List PortInput) : State.Inv { s with port := ports } :=
  { h with }

/-- R128, R129: a command that fails or is ignored changes nothing the invariant speaks of. -/
theorem State.Inv.of_failed {s t : State} {e : Err} (h : s.Inv) (f : Failed s t e) : t.Inv where
  inputDomain := by rw [f.input, f.len]; exact h.inputDomain
  outDomain := by rw [f.out, f.outLen]; exact h.outDomain
  posLe := by rw [f.pos, f.len]; exact h.posLe
  runLe := by rw [f.run]; exact h.runLe
  drunLe := by rw [f.drun]; exact h.drunLe
  runOnlyEnc := by rw [f.run, f.mode]; exact h.runOnlyEnc
  drunOnlyDec := by rw [f.drun, f.mode]; exact h.drunOnlyDec
  countBusy := by rw [f.count, f.mode]; exact h.countBusy
  cacheHome := by rw [f.cache]; exact h.cacheHome
  opaqueAlpha := by rw [f.mode, f.chan4, f.prev]; exact h.opaqueAlpha

/-- R72: an illegal command byte. -/
theorem illegalCommand_keeps_inv {s t : State} (h : s.Inv) (ht : illegalCommand s = .next t) : t.Inv := by
  rcases illegalCommand_cases s with ⟨-, hs⟩ | ⟨-, hs⟩ <;> rw [hs] at ht <;> cases ht
  · exact h.of_failed (failed_ignore s)
  · exact h.of_failed (failed_raise s _)

/-! ### The STARTs (R86, R103, R143) -/

/-- A pass just started, with any input LEN can count, whatever the state before it. -/
theorem startCount_clearPass_inv (s : State) (chan4 : Bool) (bytes : List Byte) (hlen : bytes.length < 2 ^ 64)
    (n : Count) (m : Mode) (hm : m = .enc ∨ m = .dec) (e : Err) :
    (State.startCount
      { s.clearPass with chan4 := chan4, input := Memory.ofBytes bytes, len := BitVec.ofNat 64 bytes.length }
      n m e).Inv where
  inputDomain := by
    rw [startCount_input, startCount_len, Memory.domain_ofBytes, BitVec.toNat_ofNat, Nat.mod_eq_of_lt hlen]
  outDomain := by simp
  posLe := by simp
  runLe := by simp
  drunLe := by simp
  runOnlyEnc := by simp
  drunOnlyDec := by simp
  countBusy := by
    by_cases hn : n = 0
    · simp [hn]
    · rcases hm with rfl | rfl <;> simp [show ¬ n = 0#64 from hn]
  cacheHome := fun i => .inl (by simp)
  opaqueAlpha := by simp

theorem exec_encStart_keeps_inv {s t : State} {chan4 : Bool} {n : Count} (ht : exec (.encStart chan4 n) s = .next t) :
    t.Inv := by
  cases ht
  exact startCount_clearPass_inv s chan4 [] (by decide) n .enc (.inl rfl) .validation

theorem exec_decStart_keeps_inv {s t : State} {n : Count} {bytes : List Byte}
    (ht : exec (.decStart n bytes) s = .next t) : t.Inv := by
  change execDecStart n bytes s = .next t at ht
  unfold execDecStart at ht
  split at ht
  · cases ht
  · next hlen =>
    cases ht
    exact startCount_clearPass_inv s false bytes (by omega) n .dec (.inr rfl) .format

/-! ### One pixel more in CACHE, one fewer in COUNT -/

theorem Encoded.cache_eq {s t : State} {p : Pixel} {bytes : List Byte} {run : BitVec 6}
    (d : Encoded s t p bytes run) : t.cache = s.cache.update p :=
  Cache.ext_lookup _ _ fun i => (d.cache i).trans (Cache.lookup_update s.cache p i).symm

theorem Decoded.cache_eq {s t : State} {n : Nat} {px : Pixel} {owed : BitVec 6}
    (d : Decoded s t n px owed) : t.cache = s.cache.update px :=
  Cache.ext_lookup _ _ fun i => (d.cache i).trans (Cache.lookup_update s.cache px i).symm

/-! ### One pixel encoded (R88) -/

/-- R87: in channel-3 mode the encoder takes every pixel with alpha 255. -/
theorem effectivePixel_alpha (p : Pixel) : (effectivePixel false p).a = 255#8 := rfl

/-- R36: OUT after one pixel. -/
theorem encodePixel_out (p : Pixel) (s : State) :
    (encodePixel p s).out = s.out.writeBytes s.outLen.toNat (pixelBytes p s) := by
  unfold encodePixel pixelBytes
  split <;> rfl

/-- R18, R92: a pixel that does not close the run leaves one of at most 61. -/
theorem run_succ_le_of_open (s : State) (hr : s.run.toNat ≤ 61) (hc : ¬ runCloses s = true) :
    (s.run + 1).toNat ≤ 61 := by
  rw [runCloses_iff s hr] at hc
  bv_omega

/-- A pixel encoded keeps the invariant if the run it leaves open is in range, and none is left at the image's end. -/
theorem State.Inv.of_encoded {s t : State} {p : Pixel} {bytes : List Byte} {run : BitVec 6} (h : s.Inv) (g : s.Encoding)
    (d : Encoded s t p bytes run) (hout : t.out = s.out.writeBytes s.outLen.toNat bytes)
    (hrun : run.toNat ≤ 61) (hlast : s.count = 1 → run = 0) (halpha : s.chan4 = false → p.a = 255#8) : t.Inv where
  inputDomain := by rw [d.input, d.len]; exact h.inputDomain
  outDomain := by rw [hout, d.outLen]; exact Memory.domain_writeBytes _ _ _ h.outDomain
  posLe := by rw [d.pos, d.len]; exact h.posLe
  runLe := by rw [d.run]; exact hrun
  drunLe := by rw [d.drun]; exact h.drunLe
  runOnlyEnc := by
    rw [d.run, d.mode]
    intro hne
    exact if_neg fun h1 => hne (hlast h1)
  drunOnlyDec := by
    rw [d.drun]
    intro hne
    exact absurd (g.mode.symm.trans (h.drunOnlyDec hne)) (by decide)
  countBusy := by
    rw [d.count, d.mode]
    by_cases h1 : s.count = 1#64 <;> simp [count_sub_one_eq_zero, h1]
  cacheHome := by rw [d.cache_eq]; exact Cache.update_home s.cache p h.cacheHome
  opaqueAlpha := by rw [d.chan4, d.prev]; exact fun _ => halpha

/-- R88: an ENC_PIXEL that passes its guards and answers a next state has encoded its pixel. -/
theorem exec_encPixel_next {s t : State} {q : Pixel} (g : s.Encoding) (ht : exec (.encPixel q) s = .next t) :
    s.hasRoom (pixelBytes (effectivePixel s.chan4 q) s).length ∧ t = encodePixel (effectivePixel s.chan4 q) s := by
  by_cases hr : s.hasRoom (pixelBytes (effectivePixel s.chan4 q) s).length
  · rw [exec_encPixel_room q s g hr] at ht
    cases ht
    exact ⟨hr, rfl⟩
  · rw [exec_encPixel_full q s g hr] at ht
    cases ht

theorem exec_encPixel_keeps_inv {s t : State} {q : Pixel} (h : s.Inv) (ht : exec (.encPixel q) s = .next t) :
    t.Inv := by
  rcases exec_encPixel_cases q s with ⟨-, hs⟩ | ⟨-, -, hs⟩ | ⟨-, -, -, hs⟩ | ⟨-, -, hs⟩ | ⟨g, -⟩
  · rw [hs] at ht; cases ht; exact h.of_failed (failed_ignore s)
  · rw [hs] at ht; cases ht; exact h.of_failed (failed_raise s _)
  · rw [hs] at ht; cases ht; exact h.of_failed (failed_raise s _)
  · rw [hs] at ht; cases ht
  · obtain ⟨hroom, rfl⟩ := exec_encPixel_next g ht
    refine h.of_encoded g (encodePixel_encoded s _ g hroom) (encodePixel_out _ s) ?_ ?_ ?_
    · split
      · next hopen => exact run_succ_le_of_open s h.runLe hopen.2
      · decide
    · exact fun hlast => if_neg fun hopen => hopen.2 (runCloses_last s hlast)
    · intro hchan
      rw [hchan]
      exact effectivePixel_alpha q

/-! ### One pixel decoded (R104) -/

/-- R19, R108: the repetitions a chunk in range leaves owed. -/
theorem chunkOwed_le (s : State) (c : Chunk) (hc : c.wf = true) (hd : s.drun.toNat ≤ 61) :
    (chunkOwed s c).toNat ≤ 61 := by
  cases c with
  | run len =>
    have hlen : 1 ≤ len ∧ len ≤ 62 := by simpa [Chunk.wf] using hc
    simp only [chunkOwed, BitVec.toNat_ofNat]
    omega
  | _ => exact hd

/-- A pixel decoded keeps the invariant if its chunk lies inside IN and the repetitions it leaves owed are in range. -/
theorem State.Inv.of_decoded {s t : State} {n : Nat} {px : Pixel} {owed : BitVec 6} (h : s.Inv) (hm : s.mode = .dec)
    (d : Decoded s t n px owed) (hpos : s.pos.toNat + n ≤ s.len.toNat) (howed : owed.toNat ≤ 61) : t.Inv where
  inputDomain := by rw [d.input, d.len]; exact h.inputDomain
  outDomain := by rw [d.out, d.outLen]; exact h.outDomain
  posLe := by rw [d.pos, d.len]; exact hpos
  runLe := by rw [d.run]; exact h.runLe
  drunLe := by
    rw [d.drun]
    split
    · decide
    · exact howed
  runOnlyEnc := by
    rw [d.run]
    intro hne
    exact absurd (hm.symm.trans (h.runOnlyEnc hne)) (by decide)
  drunOnlyDec := by
    rw [d.drun, d.mode]
    split <;> simp
  countBusy := by
    rw [d.count, d.mode]
    by_cases h1 : s.count = 1#64 <;> simp [count_sub_one_eq_zero, h1]
  cacheHome := by rw [d.cache_eq]; exact Cache.update_home s.cache px h.cacheHome
  opaqueAlpha := by
    rw [d.mode]
    split <;> simp

theorem exec_decStep_keeps_inv {s t : State} (h : s.Inv) (ht : exec .decStep s = .next t) : t.Inv := by
  rcases exec_decStep_cases s t ht with
    ⟨-, f⟩ | ⟨-, -, f⟩ | ⟨-, hm, hd, d⟩ | ⟨-, f, -⟩ | ⟨g, b0, bytes, c, -, hpos, -, hc, d⟩
  · exact h.of_failed f
  · exact h.of_failed f
  · refine h.of_decoded hm d h.posLe ?_
    have hle := h.drunLe
    have hpred : (s.drun - 1).toNat ≤ s.drun.toNat := by bv_omega
    omega
  · exact h.of_failed f
  · exact h.of_decoded g.mode d hpos (chunkOwed_le s c (decodeChunk_wf _ _ _ hc) h.drunLe)

/-! ### A step -/

/-- A command the port decodes to keeps the invariant. -/
theorem exec_command_keeps_inv {s t : State} {c : Command} {i : Instr} (h : s.Inv) (hi : decodeCommand c = .ok i)
    (ht : exec i s = .next t) : t.Inv := by
  rcases decodeCommand_cases c i hi with ⟨_, rfl⟩ | ⟨_, rfl⟩ | rfl | rfl
  · exact exec_encStart_keeps_inv ht
  · exact exec_encPixel_keeps_inv h ht
  · exact exec_decStart_keeps_inv ht
  · exact exec_decStep_keeps_inv h ht

theorem step_keeps_inv {s t : State} (h : s.Inv) (ht : step s = .next t) : t.Inv := by
  rcases step_cases s with ⟨-, hs⟩ | ⟨_, rest, -, ⟨-, hs⟩ | ⟨-, -, hs⟩ | ⟨_, _, -, -, hi, hs⟩ | ⟨_, _, -, -, -, hs⟩⟩ <;>
    rw [hs] at ht
  · cases ht; exact h
  · cases ht; exact reset_inv.withPort rest
  · cases ht; exact h.withPort rest
  · exact exec_command_keeps_inv (h.withPort rest) hi ht
  · exact illegalCommand_keeps_inv (h.withPort rest) ht

/-! ### The obligations -/

/-- Settles O10: the reset state's fields, its cleared slots and its empty IN. -/
theorem resetState : Obligations.ResetState :=
  ⟨rfl, rfl, rfl, rfl, rfl, rfl, rfl, rfl, rfl, Cache.lookup_clear, Memory.read_nil, rfl⟩

/-- Settles O50. -/
theorem invariantHoldsAtReset : Obligations.InvariantHoldsAtReset := reset_inv

/-- Settles O51, one rule per outcome of a step. -/
theorem stepKeepsInvariant : Obligations.StepKeepsInvariant :=
  fun _ _ h ht => step_keeps_inv h ht

end Sys2Proof.Machine
end

section
/-! PROOFS. IN and OUT keep their canonical form (offsets strictly rising, 20_memory.md R33, R35, R36): one rule per outcome of a
step, as for `State.Inv`. Here the state before the step need not meet the invariant. -/
namespace Sys2Proof.Machine

/-- IN and OUT list strictly rising offsets. -/
structure State.MemoryCanonical (s : State) : Prop where
  input : s.input.wf = true
  out : s.out.wf = true

/-- The canonical form speaks of IN and OUT alone. -/
theorem State.MemoryCanonical.of_eq {s t : State} (h : s.MemoryCanonical) (hin : t.input = s.input)
    (hout : t.out = s.out) : t.MemoryCanonical where
  input := by rw [hin]; exact h.input
  out := by rw [hout]; exact h.out

theorem State.MemoryCanonical.withPort {s : State} (h : s.MemoryCanonical) (ports : List PortInput) :
    State.MemoryCanonical { s with port := ports } :=
  h.of_eq rfl rfl

theorem State.MemoryCanonical.of_failed {s t : State} {e : Err} (h : s.MemoryCanonical) (f : Failed s t e) :
    t.MemoryCanonical :=
  h.of_eq f.input f.out

theorem State.MemoryCanonical.of_decoded {s t : State} {n : Nat} {px : Pixel} {owed : BitVec 6}
    (h : s.MemoryCanonical) (d : Decoded s t n px owed) : t.MemoryCanonical :=
  h.of_eq d.input d.out

/-- R86, R103: a START leaves OUT empty and IN the bytes it was handed, whatever both held before. -/
theorem startCount_clearPass_memoryCanonical (s : State) (chan4 : Bool) (bytes : List Byte) (len n : Count) (m : Mode)
    (e : Err) :
    (State.startCount { s.clearPass with chan4 := chan4, input := Memory.ofBytes bytes, len := len }
      n m e).MemoryCanonical where
  input := by rw [startCount_input]; exact Memory.ofBytes_wf bytes
  out := by rw [startCount_out]; rfl

theorem exec_encStart_memoryCanonical {s t : State} {chan4 : Bool} {n : Count}
    (ht : exec (.encStart chan4 n) s = .next t) : t.MemoryCanonical := by
  cases ht
  exact startCount_clearPass_memoryCanonical s chan4 [] 0 n .enc .validation

theorem exec_decStart_memoryCanonical {s t : State} {n : Count} {bytes : List Byte}
    (ht : exec (.decStart n bytes) s = .next t) : t.MemoryCanonical := by
  change execDecStart n bytes s = .next t at ht
  unfold execDecStart at ht
  split at ht <;> cases ht
  exact startCount_clearPass_memoryCanonical s false bytes _ n .dec .format

/-- R36: a pixel encoded appends its bytes to OUT in order, and IN is not written (R35). -/
theorem encodePixel_keeps_memoryCanonical {s : State} (p : Pixel) (h : s.MemoryCanonical) (g : s.Encoding)
    (hroom : s.hasRoom (pixelBytes p s).length) : (encodePixel p s).MemoryCanonical where
  input := by rw [(encodePixel_encoded s p g hroom).input]; exact h.input
  out := by rw [encodePixel_out]; exact Memory.writeBytes_wf _ _ _ h.out

theorem exec_encPixel_keeps_memoryCanonical {s t : State} {q : Pixel} (h : s.MemoryCanonical)
    (ht : exec (.encPixel q) s = .next t) : t.MemoryCanonical := by
  rcases exec_encPixel_cases q s with ⟨-, hs⟩ | ⟨-, -, hs⟩ | ⟨-, -, -, hs⟩ | ⟨-, -, hs⟩ | ⟨g, -⟩
  · rw [hs] at ht; cases ht; exact h.of_failed (failed_ignore s)
  · rw [hs] at ht; cases ht; exact h.of_failed (failed_raise s _)
  · rw [hs] at ht; cases ht; exact h.of_failed (failed_raise s _)
  · rw [hs] at ht; cases ht
  · obtain ⟨hroom, rfl⟩ := exec_encPixel_next g ht
    exact encodePixel_keeps_memoryCanonical _ h g hroom

theorem exec_decStep_keeps_memoryCanonical {s t : State} (h : s.MemoryCanonical) (ht : exec .decStep s = .next t) :
    t.MemoryCanonical := by
  rcases exec_decStep_cases s t ht with
    ⟨-, f⟩ | ⟨-, -, f⟩ | ⟨-, -, -, d⟩ | ⟨-, f, -⟩ | ⟨-, _, _, _, -, -, -, -, d⟩
  · exact h.of_failed f
  · exact h.of_failed f
  · exact h.of_decoded d
  · exact h.of_failed f
  · exact h.of_decoded d

/-- A command the port decodes to keeps IN and OUT canonical. -/
theorem exec_command_keeps_memoryCanonical {s t : State} {c : Command} {i : Instr} (h : s.MemoryCanonical)
    (hi : decodeCommand c = .ok i) (ht : exec i s = .next t) : t.MemoryCanonical := by
  rcases decodeCommand_cases c i hi with ⟨_, rfl⟩ | ⟨_, rfl⟩ | rfl | rfl
  · exact exec_encStart_memoryCanonical ht
  · exact exec_encPixel_keeps_memoryCanonical h ht
  · exact exec_decStart_memoryCanonical ht
  · exact exec_decStep_keeps_memoryCanonical h ht

/-- R72: an illegal command byte. -/
theorem illegalCommand_keeps_memoryCanonical {s t : State} (h : s.MemoryCanonical)
    (ht : illegalCommand s = .next t) : t.MemoryCanonical := by
  rcases illegalCommand_cases s with ⟨-, hs⟩ | ⟨-, hs⟩ <;> rw [hs] at ht <;> cases ht
  · exact h.of_failed (failed_ignore s)
  · exact h.of_failed (failed_raise s _)

theorem step_keeps_memoryCanonical {s t : State} (h : s.MemoryCanonical) (ht : step s = .next t) :
    t.MemoryCanonical := by
  rcases step_cases s with ⟨-, hs⟩ | ⟨_, rest, -, ⟨-, hs⟩ | ⟨-, -, hs⟩ | ⟨_, _, -, -, hi, hs⟩ | ⟨_, _, -, -, -, hs⟩⟩ <;>
    rw [hs] at ht
  · cases ht; exact h
  · cases ht; exact ⟨reset_memory_wf.1, reset_memory_wf.2⟩
  · cases ht; exact h.withPort rest
  · exact exec_command_keeps_memoryCanonical (h.withPort rest) hi ht
  · exact illegalCommand_keeps_memoryCanonical (h.withPort rest) ht

/-! ### The obligations -/

/-- Settles O53, one rule per outcome of a step. -/
theorem stepKeepsMemoryCanonical : Obligations.StepKeepsMemoryCanonical := by
  intro s t hin hout ht
  obtain ⟨hin', hout'⟩ := step_keeps_memoryCanonical ⟨hin, hout⟩ ht
  exact ⟨hin', hout'⟩

/-- Settles O13: the input is no reset, and the port's decoder answers the instruction. -/
theorem stepPerformsDecodedCommand : Obligations.StepPerformsDecodedCommand := by
  intro s c rest i hport hi
  rw [step_cons s _ rest hport]
  simp [performInput, performCommand, hi]

end Sys2Proof.Machine
end

section
/-! PROOFS. The chunk stream's codec is a bijection between well-formed chunks and the byte sequences that decode (30_encoding.md
R54 to R67). Each chunk kind is one range of the first byte (R62), and its fields are read by number: `decodeDiff_eq` and its
siblings say what the fields of a byte are, `Laws/Codec.lean` what the bytes of a field are. -/
namespace Sys2Proof

/-! ### The fields of a chunk, by number (R55 to R58, R63) -/

theorem decodeIndex_eq (b0 : Byte) : decodeIndex b0 = .index (BitVec.ofNat 6 b0.toNat) := by
  have hslot : b0.extractLsb' 0 6 = BitVec.ofNat 6 b0.toNat :=
    BitVec.eq_of_toNat_eq (by simp)
  rw [decodeIndex, hslot]

theorem decodeDiff_eq (b0 : Byte) :
    decodeDiff b0 =
      .diff ((b0.toNat / 16 % 4 : Nat) - 2) ((b0.toNat / 4 % 4 : Nat) - 2) ((b0.toNat % 4 : Nat) - 2) := by
  simp only [decodeDiff, unbias, toNat_field, Nat.reducePow, Nat.div_one]

theorem decodeLuma_eq (b0 b1 : Byte) :
    decodeLuma b0 b1 =
      .luma ((b0.toNat % 64 : Nat) - 32) ((b1.toNat / 16 : Nat) - 8) ((b1.toNat % 16 : Nat) - 8) := by
  have hu : b1.toNat / 16 % 16 = b1.toNat / 16 := Nat.mod_eq_of_lt (by have := b1.isLt; omega)
  simp only [decodeLuma, unbias, toNat_field, Nat.reducePow, Nat.div_one, hu]

theorem decodeRun_eq (b0 : Byte) : decodeRun b0 = .run (b0.toNat % 64 + 1) := by
  simp [decodeRun]

/-! ### Decoding the bytes of a chunk -/

theorem decodeIndex_indexByte (i : Slot) : decodeIndex (0b00#2 ++ i : BitVec (2 + 6)) = .index i := by
  rw [decodeIndex_eq, indexByte_toNat, BitVec.ofNat_toNat, BitVec.setWidth_eq]

theorem decodeDiff_diffByte (dr dg db : Int) (h : (Chunk.diff dr dg db).wf = true) :
    decodeDiff (0b01#2 ++ biased 2 dr 2 ++ biased 2 dg 2 ++ biased 2 db 2 : BitVec (2 + 2 + 2 + 2)) =
      .diff dr dg db := by
  simp only [Chunk.wf, Bool.and_eq_true, decide_eq_true_eq] at h
  have hr := toNat_biased 2 dr 2 (by omega) (by omega)
  have hg := toNat_biased 2 dg 2 (by omega) (by omega)
  have hb := toNat_biased 2 db 2 (by omega) (by omega)
  rw [decodeDiff_eq, diffByte_toNat, Chunk.diff.injEq]
  omega

theorem decodeLuma_lumaBytes (dg du dv : Int) (h : (Chunk.luma dg du dv).wf = true) :
    decodeLuma (0b10#2 ++ biased 6 dg 32 : BitVec (2 + 6)) (biased 4 du 8 ++ biased 4 dv 8 : BitVec (4 + 4)) =
      .luma dg du dv := by
  simp only [Chunk.wf, Bool.and_eq_true, decide_eq_true_eq] at h
  have hg := toNat_biased 6 dg 32 (by omega) (by omega)
  have hu := toNat_biased 4 du 8 (by omega) (by omega)
  have hv := toNat_biased 4 dv 8 (by omega) (by omega)
  rw [decodeLuma_eq, lumaByte_toNat, nibbles_toNat, Chunk.luma.injEq]
  omega

/-- R58: the field of a RUN chunk in range is its length less 1. -/
theorem toNat_runField (len : Nat) (h : (Chunk.run len).wf = true) :
    (BitVec.ofNat 6 (len - 1)).toNat + 1 = len ∧ 1 ≤ len ∧ len ≤ 62 := by
  have hlen : 1 ≤ len ∧ len ≤ 62 := by simpa [Chunk.wf] using h
  rw [BitVec.toNat_ofNat]
  omega

theorem decodeRun_runByte (len : Nat) (h : (Chunk.run len).wf = true) :
    decodeRun (0b11#2 ++ BitVec.ofNat 6 (len - 1) : BitVec (2 + 6)) = .run len := by
  have hlen := toNat_runField len h
  rw [decodeRun_eq, runByte_toNat, Chunk.run.injEq]
  omega

/-- R54 to R60: each kind's first byte lies in its kind's range, so the decoder reads that kind, and the fields are the operands. -/
theorem decodeChunk_encodeChunk (c : Chunk) (rest : List Byte) (h : c.wf = true) :
    decodeChunk (encodeChunk c ++ rest) = .ok (c, rest) := by
  cases c with
  | index i =>
    refine (decodeChunk_index _ rest ?_).trans (by rw [decodeIndex_indexByte])
    have := i.isLt
    rw [indexByte_toNat]
    omega
  | diff dr dg db =>
    refine (decodeChunk_diff _ rest ?_).trans (by rw [decodeDiff_diffByte dr dg db h])
    have := (biased 2 dr 2).isLt
    have := (biased 2 dg 2).isLt
    have := (biased 2 db 2).isLt
    rw [diffByte_toNat]
    omega
  | luma dg du dv =>
    refine (decodeChunk_luma _ (_ :: rest) ?_).trans ?_
    · have := (biased 6 dg 32).isLt
      rw [lumaByte_toNat]
      omega
    · exact congrArg (fun c => Except.ok (c, rest)) (decodeLuma_lumaBytes dg du dv h)
  | run len =>
    refine (decodeChunk_run _ rest ?_).trans (by rw [decodeRun_runByte len h])
    have hlen := toNat_runField len h
    rw [runByte_toNat]
    omega
  | rgb r g b => exact decodeChunk_rgb _
  | rgba r g b a => exact decodeChunk_rgba _

/-! ### The bytes of a decoded chunk -/

theorem encodeChunk_decodeIndex (b0 : Byte) (h : b0.toNat ≤ 0x3F) : encodeChunk (decodeIndex b0) = [b0] := by
  have hb : (0b00#2 ++ b0.extractLsb' 0 6 : BitVec (2 + 6)) = b0 := byte_ext (by
    rw [indexByte_toNat, toNat_field]
    omega)
  exact congrArg (fun b : Byte => [b]) hb

/-- Storing what was read from a field gives the field back (R63, R65). -/
theorem biased_unbias {w : Nat} (field : BitVec w) (bias : Int) : biased w (unbias field bias) bias = field := by
  simp [biased, unbias]

theorem encodeChunk_decodeDiff (b0 : Byte) (h : 0x40 ≤ b0.toNat ∧ b0.toNat ≤ 0x7F) :
    encodeChunk (decodeDiff b0) = [b0] := by
  have hb : (0b01#2 ++ b0.extractLsb' 4 2 ++ b0.extractLsb' 2 2 ++ b0.extractLsb' 0 2 : BitVec (2 + 2 + 2 + 2)) = b0 :=
    byte_ext (by
      rw [diffByte_toNat, toNat_field, toNat_field, toNat_field]
      omega)
  simp only [decodeDiff, encodeChunk, biased_unbias]
  exact congrArg (fun b : Byte => [b]) hb

theorem encodeChunk_decodeLuma (b0 b1 : Byte) (h : 0x80 ≤ b0.toNat ∧ b0.toNat ≤ 0xBF) :
    encodeChunk (decodeLuma b0 b1) = [b0, b1] := by
  have hb0 : (0b10#2 ++ b0.extractLsb' 0 6 : BitVec (2 + 6)) = b0 := byte_ext (by
    rw [lumaByte_toNat, toNat_field]
    omega)
  have hb1 : (b1.extractLsb' 4 4 ++ b1.extractLsb' 0 4 : BitVec (4 + 4)) = b1 := byte_ext (by
    have := b1.isLt
    rw [nibbles_toNat, toNat_field, toNat_field]
    omega)
  simp only [decodeLuma, encodeChunk, biased_unbias]
  exact List.cons_eq_cons.2 ⟨hb0, congrArg (fun b : Byte => [b]) hb1⟩

theorem encodeChunk_decodeRun (b0 : Byte) (h : 0xC0 ≤ b0.toNat) : encodeChunk (decodeRun b0) = [b0] := by
  have hb : (0b11#2 ++ b0.extractLsb' 0 6 : BitVec (2 + 6)) = b0 := byte_ext (by
    have := b0.isLt
    rw [runByte_toNat, toNat_field]
    omega)
  simp only [decodeRun, encodeChunk, Nat.add_sub_cancel, BitVec.ofNat_toNat, BitVec.setWidth_eq]
  exact congrArg (fun b : Byte => [b]) hb

/-- R62, the other way round: what a byte sequence that decodes can be, one case per chunk kind. -/
theorem decodeChunk_cases (bytes : List Byte) (c : Chunk) (rest : List Byte) (h : decodeChunk bytes = .ok (c, rest)) :
    (∃ b0, b0.toNat ≤ 0x3F ∧ bytes = b0 :: rest ∧ c = decodeIndex b0) ∨
    (∃ b0, (0x40 ≤ b0.toNat ∧ b0.toNat ≤ 0x7F) ∧ bytes = b0 :: rest ∧ c = decodeDiff b0) ∨
    (∃ b0 b1, (0x80 ≤ b0.toNat ∧ b0.toNat ≤ 0xBF) ∧ bytes = b0 :: b1 :: rest ∧ c = decodeLuma b0 b1) ∨
    (∃ b0, (0xC0 ≤ b0.toNat ∧ b0.toNat ≤ 0xFD) ∧ bytes = b0 :: rest ∧ c = decodeRun b0) ∨
    (∃ r g b, bytes = 0xFE#8 :: r :: g :: b :: rest ∧ c = .rgb r g b) ∨
    (∃ r g b a, bytes = 0xFF#8 :: r :: g :: b :: a :: rest ∧ c = .rgba r g b a) := by
  cases bytes with
  | nil => cases h
  | cons b0 tail =>
    simp only [decodeChunk] at h
    split at h
    · next hrgb =>
      split at h <;> cases h
      exact .inr (.inr (.inr (.inr (.inl ⟨_, _, _, by rw [hrgb], rfl⟩))))
    · next hrgb =>
      split at h
      · next hrgba =>
        split at h <;> cases h
        exact .inr (.inr (.inr (.inr (.inr ⟨_, _, _, _, by rw [hrgba], rfl⟩))))
      · next hrgba =>
        simp only [← BitVec.toNat_inj, tag_toNat, BitVec.toNat_ofNat] at hrgb hrgba h
        split at h
        · cases h
          exact .inl ⟨b0, by omega, rfl, rfl⟩
        · split at h
          · cases h
            exact .inr (.inl ⟨b0, by omega, rfl, rfl⟩)
          · split at h
            · split at h <;> cases h
              exact .inr (.inr (.inl ⟨b0, _, by omega, rfl, rfl⟩))
            · cases h
              exact .inr (.inr (.inr (.inl ⟨b0, by omega, rfl, rfl⟩)))

/-- R55 to R62: no bit of a byte is dropped. -/
theorem encodeChunk_of_decodeChunk (bytes : List Byte) (c : Chunk) (rest : List Byte)
    (h : decodeChunk bytes = .ok (c, rest)) : encodeChunk c ++ rest = bytes := by
  rcases decodeChunk_cases bytes c rest h with
    ⟨b0, hb, rfl, rfl⟩ | ⟨b0, hb, rfl, rfl⟩ | ⟨b0, b1, hb, rfl, rfl⟩ | ⟨b0, hb, rfl, rfl⟩ | ⟨r, g, b, rfl, rfl⟩ |
    ⟨r, g, b, a, rfl, rfl⟩
  · rw [encodeChunk_decodeIndex b0 hb]; rfl
  · rw [encodeChunk_decodeDiff b0 hb]; rfl
  · rw [encodeChunk_decodeLuma b0 b1 hb]; rfl
  · rw [encodeChunk_decodeRun b0 hb.1]; rfl
  · rfl
  · rfl

/-! ### Running out of bytes (R67) -/

/-- R67: the chunk decoder has no other failure. -/
theorem decodeChunk_error (bytes : List Byte) (e : DecodeError) (h : decodeChunk bytes = .error e) : e = .outOfBytes := by
  unfold decodeChunk at h
  repeat' split at h
  all_goals cases h
  all_goals rfl

/-- A sequence shorter than the chunk its first byte begins does not decode: a chunk it decoded to would have that many bytes. -/
theorem decodeChunk_of_short (b0 : Byte) (rest : List Byte) (h : (b0 :: rest).length < chunkLength b0) :
    decodeChunk (b0 :: rest) = .error .outOfBytes := by
  cases hd : decodeChunk (b0 :: rest) with
  | error e => rw [decodeChunk_error _ _ hd]
  | ok answer =>
    obtain ⟨c, after⟩ := answer
    have hlen := congrArg List.length (encodeChunk_of_decodeChunk _ c after hd)
    rw [List.length_append, Machine.encodeChunk_length_of_decode b0 rest c after hd] at hlen
    omega

/-! ### The obligations on the chunk stream -/

/-- Settles O2. -/
theorem chunkDecodeInvertsEncode : Obligations.ChunkDecodeInvertsEncode := decodeChunk_encodeChunk

/-- Settles O3. -/
theorem chunkEncodeInvertsDecode : Obligations.ChunkEncodeInvertsDecode :=
  fun bytes c rest h => ⟨decodeChunk_wf bytes c rest h, encodeChunk_of_decodeChunk bytes c rest h⟩

/-- Settles O5, one range of first bytes at a time. -/
theorem firstByteMap : Obligations.FirstByteMap := by
  intro b0 rest
  refine ⟨fun h => ?_, fun h => ?_, fun h b1 => ?_, fun h => ?_, fun h r g b => ?_, fun h r g b a => ?_⟩
  · rw [decodeChunk_index b0 rest h, decodeIndex_eq]
  · rw [decodeChunk_diff b0 rest h, decodeDiff_eq]
  · rw [decodeChunk_luma b0 (b1 :: rest) h, ← decodeLuma_eq]
  · rw [decodeChunk_run b0 rest h, decodeRun_eq]
  · obtain rfl : b0 = 0xFE#8 := byte_ext h
    exact decodeChunk_rgb _
  · obtain rfl : b0 = 0xFF#8 := byte_ext h
    exact decodeChunk_rgba _

/-- Settles O6. -/
theorem onlyMissingBytesFailToDecode : Obligations.OnlyMissingBytesFailToDecode :=
  ⟨rfl, fun b0 rest => ⟨chunkLength_eq b0, Machine.decodeChunk_of_length b0 rest, decodeChunk_of_short b0 rest⟩⟩

end Sys2Proof
end

section
/-! PROOFS. The command port (30_encoding.md R70 to R72): the five legal command bytes, what each reads from the operand ports, and
that every other byte is rejected and raises CommandError. -/
namespace Sys2Proof

/-! ### The decoder of the port, by command byte -/

/-- R15: the channels of the PIXEL port, by number. -/
theorem Pixel.ofWord_toNat (w : PixelWord) :
    (Pixel.ofWord w).r.toNat = w.toNat / 2 ^ 24 ∧ (Pixel.ofWord w).g.toNat = w.toNat / 2 ^ 16 % 256 ∧
    (Pixel.ofWord w).b.toNat = w.toNat / 2 ^ 8 % 256 ∧ (Pixel.ofWord w).a.toNat = w.toNat % 256 := by
  have hw := w.isLt
  exact ⟨(toNat_field w 24 8).trans (Nat.mod_eq_of_lt (by omega)), toNat_field w 16 8, toNat_field w 8 8,
    (toNat_field w 0 8).trans (congrArg (· % 256) (Nat.div_one _))⟩

theorem decodeCommand_encStart (c : Command) (chan4 : Bool) (h : c.cmd = if chan4 then 0x11#8 else 0x01#8) :
    decodeCommand c = .ok (.encStart chan4 c.n) := by
  cases chan4 <;> simp [decodeCommand, h]

theorem decodeCommand_encPixel (c : Command) (h : c.cmd = 0x02#8) :
    decodeCommand c = .ok (.encPixel (Pixel.ofWord c.pixel)) := by
  simp [decodeCommand, h]

theorem decodeCommand_decStart (c : Command) (h : c.cmd = 0x03#8) :
    decodeCommand c = .ok (.decStart c.n c.input) := by
  simp [decodeCommand, h]

theorem decodeCommand_decStep (c : Command) (h : c.cmd = 0x04#8) : decodeCommand c = .ok .decStep := by
  simp [decodeCommand, h]

/-- R70: a byte is its reserved bits, its bit C and its OP. -/
theorem byte_toNat_fields (b : Byte) :
    b.toNat = (b.extractLsb' 5 3).toNat * 32 + (b.getLsbD 4).toNat * 16 + (b.extractLsb' 0 4).toNat := by
  have hbit : (b.getLsbD 4).toNat = b.toNat / 16 % 2 := by
    rw [BitVec.getLsbD, Nat.toNat_testBit]
  have hb := b.isLt
  rw [hbit, toNat_field, toNat_field]
  omega

/-- A byte with no reserved bit and no bit C is its OP. -/
theorem byte_eq_op (b : Byte) (op : BitVec 4) (hreserved : b.extractLsb' 5 3 = 0#3) (hop : b.extractLsb' 0 4 = op)
    (hbit : ¬ b.getLsbD 4 = true) : b = op.setWidth 8 := by
  have hfields := byte_toNat_fields b
  rw [hreserved, eq_false_of_ne_true hbit, hop] at hfields
  exact byte_ext (hfields.trans (by have := op.isLt; simp; omega))

/-- R71, R72: only the five legal bytes are commands. -/
theorem cmd_legal_of_decodeCommand (c : Command) (i : Instr) (h : decodeCommand c = .ok i) :
    c.cmd ∈ [0x01#8, 0x11#8, 0x02#8, 0x03#8, 0x04#8] := by
  simp only [List.mem_cons, List.not_mem_nil, or_false]
  unfold decodeCommand at h
  repeat' split at h
  all_goals cases h
  · next hreserved hop =>
    have hfields := byte_toNat_fields c.cmd
    rw [Decidable.of_not_not hreserved, hop] at hfields
    cases hbit : c.cmd.getLsbD 4 <;> rw [hbit] at hfields
    · exact .inl (byte_ext hfields)
    · exact .inr (.inl (byte_ext hfields))
  · next hreserved _ hop hbit =>
    exact .inr (.inr (.inl (byte_eq_op _ 2#4 (Decidable.of_not_not hreserved) hop hbit)))
  · next hreserved _ _ hop hbit =>
    exact .inr (.inr (.inr (.inl (byte_eq_op _ 3#4 (Decidable.of_not_not hreserved) hop hbit))))
  · next hreserved _ _ _ hop hbit =>
    exact .inr (.inr (.inr (.inr (byte_eq_op _ 4#4 (Decidable.of_not_not hreserved) hop hbit))))

/-- R72: every other byte is rejected. -/
theorem decodeCommand_illegal (c : Command) (h : c.cmd ∉ [0x01#8, 0x11#8, 0x02#8, 0x03#8, 0x04#8]) :
    ∃ e, decodeCommand c = .error e := by
  cases hd : decodeCommand c with
  | ok i => exact absurd (cmd_legal_of_decodeCommand c i hd) h
  | error e => exact ⟨e, rfl⟩

/-! ### Encoding a command -/

/-- R71: the port command of an instruction decodes to it. -/
theorem decodeCommand_encodeCommand (i : Instr) (cmd : Command) (h : encodeCommand i = some cmd) :
    decodeCommand cmd = .ok i := by
  cases i with
  | encStart c n => cases h; exact decodeCommand_encStart _ c rfl
  | encPixel p => cases h; exact (decodeCommand_encPixel _ rfl).trans (by rw [Pixel.ofWord_toWord])
  | decStart n bytes => cases h; exact decodeCommand_decStart _ rfl
  | decStep => cases h; exact decodeCommand_decStep _ rfl
  | _ => cases h

/-- R71: only a chunk has no port command. -/
theorem encodeCommand_eq_none (i : Instr) (h : encodeCommand i = none) : ∃ c : Chunk, i = c.toInstr := by
  cases i with
  | index i => exact ⟨.index i, rfl⟩
  | diff dr dg db => exact ⟨.diff dr dg db, rfl⟩
  | luma dg du dv => exact ⟨.luma dg du dv, rfl⟩
  | run len => exact ⟨.run len, rfl⟩
  | rgb r g b => exact ⟨.rgb r g b, rfl⟩
  | rgba r g b a => exact ⟨.rgba r g b a, rfl⟩
  | _ => cases h

end Sys2Proof

namespace Sys2Proof.Machine

/-- R72: a step on an illegal command byte, whatever the other ports hold. -/
theorem step_illegal (s : State) (c : Command) (rest : List PortInput) (hport : s.port = ⟨false, some c⟩ :: rest)
    (hcmd : c.cmd ∉ [0x01#8, 0x11#8, 0x02#8, 0x03#8, 0x04#8]) :
    step s = illegalCommand { s with port := rest } := by
  obtain ⟨e, he⟩ := decodeCommand_illegal c hcmd
  rw [step_cons s _ rest hport]
  simp [performInput, performCommand, he]

/-- R72, R129: an illegal command is a failed one, with CommandError unless an error was already held. -/
theorem illegalCommand_failed (s : State) :
    ∃ t, illegalCommand s = .next t ∧ Failed s t (if s.err = .none then .command else s.err) := by
  rcases illegalCommand_cases s with ⟨herr, hs⟩ | ⟨herr, hs⟩
  · rw [if_neg herr]
    exact ⟨_, hs, failed_ignore s⟩
  · rw [if_pos herr]
    exact ⟨_, hs, failed_raise s _⟩

/-! ### The obligations on the command port -/

/-- Settles O1. -/
theorem sampleWordsDecode : Obligations.SampleWordsDecode :=
  ⟨rfl, rfl, rfl, rfl, rfl, rfl, rfl, rfl, rfl, rfl⟩

/-- Settles O4. -/
theorem commandDecodeInvertsEncode : Obligations.CommandDecodeInvertsEncode := by
  intro i hchunk
  cases hcmd : encodeCommand i with
  | none =>
    obtain ⟨c, hc⟩ := encodeCommand_eq_none i hcmd
    exact absurd hc (hchunk c)
  | some cmd => exact ⟨cmd, rfl, decodeCommand_encodeCommand i cmd hcmd⟩

/-- Settles O7, one command byte at a time. -/
theorem legalCommandBytes : Obligations.LegalCommandBytes :=
  fun c => ⟨decodeCommand_encStart c false, decodeCommand_encStart c true,
    fun h => ⟨_, decodeCommand_encPixel c h, Pixel.ofWord_toNat c.pixel⟩,
    decodeCommand_decStart c, decodeCommand_decStep c, decodeCommand_illegal c⟩

/-- Settles O15. -/
theorem illegalCommandByteRaisesCommandError : Obligations.IllegalCommandByteRaisesCommandError := by
  intro s c rest hport hcmd
  rw [step_illegal s c rest hport hcmd]
  exact illegalCommand_failed { s with port := rest }

end Sys2Proof.Machine
end

section
/-! PROOFS. What every response reports (10_state.md R24, R25, R27; 30_encoding.md R73): one rule per outcome of a command, a
failed one (R128, R129), a START (R86, R103), a pixel encoded (R88), a pixel decoded (R104). -/
namespace Sys2Proof.Machine

/-- R27: STATUS by number. -/
theorem statusByte_toNat (m : Mode) (e : Err) : (statusByte m e).toNat = m.code.toNat + 8 * e.code.toNat := by
  simp only [statusByte, toNat_append', BitVec.toNat_ofNat]
  omega

/-! ### What the commands can do -/

/-- The instructions that decode: DEC_STEP, and a chunk taken by itself (log entry 7). -/
def IsDecode (i : Instr) : Prop := i = .decStep ∨ ∃ c : Chunk, i = c.toInstr

/-- The instructions that start a pass. -/
def IsStart (i : Instr) : Prop := (∃ c n, i = .encStart c n) ∨ ∃ n bytes, i = .decStart n bytes

theorem not_isDecode_encPixel (p : Pixel) : ¬ IsDecode (.encPixel p) := by
  rintro (h | ⟨c, h⟩)
  · cases h
  · cases c <;> cases h

theorem IsStart.not_isDecode {i : Instr} (hs : IsStart i) : ¬ IsDecode i := by
  rintro (rfl | ⟨c, rfl⟩)
  · rcases hs with ⟨_, _, h⟩ | ⟨_, _, h⟩ <;> cases h
  · rcases hs with ⟨_, _, h⟩ | ⟨_, _, h⟩ <;> cases c <;> cases h

theorem not_isStart_encPixel (p : Pixel) : ¬ IsStart (.encPixel p) := by
  rintro (⟨_, _, h⟩ | ⟨_, _, h⟩) <;> cases h

theorem instr_kinds (i : Instr) : IsDecode i ∨ IsStart i ∨ ∃ p, i = .encPixel p := by
  cases i with
  | encStart c n => exact .inr (.inl (.inl ⟨c, n, rfl⟩))
  | encPixel p => exact .inr (.inr ⟨p, rfl⟩)
  | decStart n bytes => exact .inr (.inl (.inr ⟨n, bytes, rfl⟩))
  | decStep => exact .inl (.inl rfl)
  | _ => exact .inl (.inr (encodeCommand_eq_none _ rfl))

/-- A chunk taken by itself fails or yields its pixel (R104, R112). -/
theorem exec_chunk_cases {c : Chunk} {s t : State} (h : exec c.toInstr s = .next t) :
    (∃ e, e ≠ .none ∧ Failed s t e) ∨ ∃ n px owed, Decoded s t n px owed := by
  rw [exec_toInstr] at h
  rcases decodeGuard_cases (performChunk c) s with ⟨he, hg⟩ | ⟨-, -, hg⟩ | ⟨he, hm, -, hg⟩ | ⟨g, -⟩
  · rw [hg] at h; cases h
    exact .inl ⟨_, he, failed_ignore s⟩
  · rw [hg] at h; cases h
    exact .inl ⟨_, by decide, failed_raise s .command⟩
  · obtain ⟨u, hu, d⟩ := repeatPixel_next s he hm
    rw [hg, hu] at h; cases h
    exact .inr ⟨_, _, _, d⟩
  · rw [← exec_toInstr] at h
    by_cases hl : s.pos.toNat + (encodeChunk c).length ≤ s.len.toNat
    · obtain ⟨u, hu, d⟩ := exec_chunk_next c s g hl
      rw [hu] at h; cases h
      exact .inr ⟨_, _, _, d⟩
    · obtain ⟨u, hu, f⟩ := exec_chunk_truncated c s g (by omega)
      rw [hu] at h; cases h
      exact .inl ⟨_, by decide, f⟩

/-- A decoding instruction fails or yields a pixel. -/
theorem exec_decode_cases {i : Instr} {s t : State} (hi : IsDecode i) (h : exec i s = .next t) :
    (∃ e, e ≠ .none ∧ Failed s t e) ∨ ∃ n px owed, Decoded s t n px owed := by
  rcases hi with rfl | ⟨c, rfl⟩
  · rcases exec_decStep_cases s t h with
      ⟨he, f⟩ | ⟨-, -, f⟩ | ⟨-, -, -, d⟩ | ⟨-, f, -⟩ | ⟨-, _, _, _, -, -, -, -, d⟩
    · exact .inl ⟨_, he, f⟩
    · exact .inl ⟨_, by decide, f⟩
    · exact .inr ⟨_, _, _, d⟩
    · exact .inl ⟨_, by decide, f⟩
    · exact .inr ⟨_, _, _, d⟩
  · exact exec_chunk_cases h

/-- R54. -/
theorem encodeChunk_length_le (c : Chunk) : (encodeChunk c).length ≤ 5 := by
  cases c <;> simp [encodeChunk]

theorem flushBytes_length_le (run : BitVec 6) : (flushBytes run).length ≤ 1 := by
  unfold flushBytes
  split <;> simp

/-- R100: a flush byte and the longest chunk are the most a pixel emits. -/
theorem pixelBytes_length_le (p : Pixel) (s : State) : (pixelBytes p s).length ≤ 6 := by
  by_cases hp : p = s.prev
  · rw [pixelBytes_equal p s hp]
    exact Nat.le_trans (runPixelBytes_length s) (by decide)
  · rw [pixelBytes_differing p s hp, differingBytes_eq, List.length_append]
    have hflush := flushBytes_length_le s.run
    have hchunk := encodeChunk_length_le (selectChunk s.cache s.prev p)
    omega

/-- An ENC_PIXEL that answers a next state fails or encodes its pixel in at most 6 bytes. -/
theorem exec_encPixel_next_cases {q : Pixel} {s t : State} (h : exec (.encPixel q) s = .next t) :
    (∃ e, e ≠ .none ∧ Failed s t e) ∨ ∃ p bytes run, bytes.length ≤ 6 ∧ Encoded s t p bytes run := by
  rcases exec_encPixel_cases q s with ⟨he, hs⟩ | ⟨-, -, hs⟩ | ⟨-, -, -, hs⟩ | ⟨-, -, hs⟩ | ⟨-, u, run, hs, d⟩ <;>
    rw [hs] at h <;> cases h
  · exact .inl ⟨_, he, failed_ignore s⟩
  · exact .inl ⟨_, by decide, failed_raise s .validation⟩
  · exact .inl ⟨_, by decide, failed_raise s .command⟩
  · exact .inr ⟨_, _, run, pixelBytes_length_le _ s, d⟩

/-! ### What a response reports -/

/-- The response `r` reports what the instruction `i` did from `s` to `t` (R73). -/
structure Reports (i : Instr) (s t : State) (r : Response) : Prop where
  status : r.status = statusByte t.mode t.err
  noBytes : (∀ p, i ≠ .encPixel p) → r.bytes = []
  failed : t.err ≠ .none → r.bytes = [] ∧ r.pixel = none
  appended : ∀ p, i = .encPixel p → r.bytes.length ≤ 6 ∧ r.pixel = none ∧
    t.outLen.toNat = s.outLen.toNat + r.bytes.length ∧
    ∀ k < r.bytes.length, t.out.read (s.outLen.toNat + k) = r.bytes[k]?
  decoded : IsDecode i → t.err = .none → r.pixel = some t.prev.toWord
  started : IsStart i → r.pixel = none

/-- R128, R129: whatever the instruction, one that fails has nothing to report but STATUS. -/
theorem reports_of_failed (i : Instr) {s t : State} {e : Err} (he : e ≠ .none) (f : Failed s t e) :
    ∃ r, t.response = some r ∧ Reports i s t r := by
  refine ⟨_, f.response, ⟨by rw [f.mode, f.err], fun _ => rfl, fun _ => ⟨rfl, rfl⟩, fun p _ => ?_, fun _ hn => ?_,
    fun _ => rfl⟩⟩
  · exact ⟨Nat.zero_le 6, rfl, by rw [f.outLen]; rfl, fun k hk => absurd hk (Nat.not_lt_zero k)⟩
  · exact absurd (f.err.symm.trans hn) he

/-- R86, R103. -/
theorem startCount_response_status (s : State) (n : Count) (m : Mode) (e : Err) :
    (s.startCount n m e).response =
      some ⟨statusByte (s.startCount n m e).mode (s.startCount n m e).err, [], none⟩ := by
  unfold State.startCount
  split <;> rfl

theorem exec_start_response {i : Instr} {s t : State} (hi : IsStart i) (h : exec i s = .next t) :
    t.response = some ⟨statusByte t.mode t.err, [], none⟩ := by
  rcases hi with ⟨c, n, rfl⟩ | ⟨n, bytes, rfl⟩
  · cases h
    exact startCount_response_status _ n .enc .validation
  · change execDecStart n bytes s = .next t at h
    unfold execDecStart at h
    split at h <;> cases h
    exact startCount_response_status _ n .dec .format

theorem reports_of_start {i : Instr} {s t : State} (hi : IsStart i) (h : exec i s = .next t) :
    ∃ r, t.response = some r ∧ Reports i s t r := by
  refine ⟨_, exec_start_response hi h, ⟨rfl, fun _ => rfl, fun _ => ⟨rfl, rfl⟩, ?_, ?_, fun _ => rfl⟩⟩
  · rintro p rfl
    exact absurd hi (not_isStart_encPixel p)
  · exact fun hd => absurd hd hi.not_isDecode

theorem reports_of_encoded (q : Pixel) {s t : State} {p : Pixel} {bytes : List Byte} {run : BitVec 6}
    (hlen : bytes.length ≤ 6) (d : Encoded s t p bytes run) : ∃ r, t.response = some r ∧ Reports (.encPixel q) s t r :=
  ⟨_, d.response, by rw [d.err], fun hne => absurd rfl (hne q), fun hne => absurd d.err hne,
    fun _ _ => ⟨hlen, rfl, d.outLen, d.appended⟩, fun hd => absurd hd (not_isDecode_encPixel q), fun _ => rfl⟩

theorem reports_of_decoded {i : Instr} (hi : IsDecode i) {s t : State} {n : Nat} {px : Pixel} {owed : BitVec 6}
    (d : Decoded s t n px owed) : ∃ r, t.response = some r ∧ Reports i s t r := by
  refine ⟨_, d.response, ⟨by rw [d.err], fun _ => rfl, fun hne => absurd d.err hne, ?_, fun _ _ => by rw [d.prev],
    fun hs => absurd hi hs.not_isDecode⟩⟩
  rintro p rfl
  exact absurd hi (not_isDecode_encPixel p)

/-- R73: every command that answers a next state reports what it did. -/
theorem exec_reports {i : Instr} {s t : State} (h : exec i s = .next t) :
    ∃ r, t.response = some r ∧ Reports i s t r := by
  rcases instr_kinds i with hi | hi | ⟨q, rfl⟩
  · rcases exec_decode_cases hi h with ⟨e, he, f⟩ | ⟨n, px, owed, d⟩
    · exact reports_of_failed i he f
    · exact reports_of_decoded hi d
  · exact reports_of_start hi h
  · rcases exec_encPixel_next_cases h with ⟨e, he, f⟩ | ⟨p, bytes, run, hlen, d⟩
    · exact reports_of_failed _ he f
    · exact reports_of_encoded q hlen d

/-! ### The obligation on responses -/

/-- Settles O26: STATUS by number, and the clauses of `Reports`. -/
theorem responseReportsOutcome : Obligations.ResponseReportsOutcome := by
  intro i s t h
  obtain ⟨r, hr, rep⟩ := exec_reports h
  refine ⟨r, hr, ?_, rep.noBytes, rep.failed, rep.appended, rep.decoded, rep.started⟩
  rw [rep.status, statusByte_toNat]
  cases t.mode <;> cases t.err <;> rfl

end Sys2Proof.Machine
end

section
/-! PROOFS. The colour cache (40_color_cache.md): the hash by number (R76, R77), one slot per update (R80), and the slot of PREV's
hash after a command (R84). -/
namespace Sys2Proof.Machine

/-! ### Hash and update -/

/-- Settles O8: 64 divides 64 times each channel's quotient, so only the channels' remainders count. -/
theorem hashIsLinearModulo64 : Obligations.HashIsLinearModulo64 := by
  intro p
  have hsum := hash_toNat p
  exact ⟨hsum, by omega⟩

/-- Settles O9. -/
theorem cacheUpdateWritesOneSlot : Obligations.CacheUpdateWritesOneSlot := by
  intro c p
  constructor
  · rw [Cache.lookup_update, if_pos rfl]
  · intro i hi
    rw [Cache.lookup_update, if_neg hi]

/-! ### The slot of PREV's hash -/

/-- The slot of PREV's hash holds PREV (R84). -/
def State.PrevCached (s : State) : Prop := s.cache.lookup (hash s.prev) = s.prev

/-- R81: the last update of an ENC_PIXEL is with the pixel that becomes PREV. -/
theorem Encoded.prevCached {s t : State} {p : Pixel} {bytes : List Byte} {run : BitVec 6}
    (d : Encoded s t p bytes run) : t.PrevCached := by
  unfold State.PrevCached
  rw [d.prev, d.cache, if_pos rfl]

/-- R81: the last update of a DEC_STEP is with the pixel that becomes PREV. -/
theorem Decoded.prevCached {s t : State} {n : Nat} {px : Pixel} {owed : BitVec 6}
    (d : Decoded s t n px owed) : t.PrevCached := by
  unfold State.PrevCached
  rw [d.prev, d.cache, if_pos rfl]

/-- R84: a DEC_STEP or ENC_PIXEL fails, or leaves PREV in its slot without an error. -/
theorem exec_pixel_cases {i : Instr} {s t : State} (hi : i = .decStep ∨ ∃ p, i = .encPixel p)
    (h : exec i s = .next t) : (∃ e, e ≠ .none ∧ Failed s t e) ∨ (t.err = .none ∧ t.PrevCached) := by
  rcases hi with rfl | ⟨q, rfl⟩
  · exact (exec_decode_cases (.inl rfl) h).imp_right fun ⟨_, _, _, d⟩ => ⟨d.err, d.prevCached⟩
  · exact (exec_encPixel_next_cases h).imp_right fun ⟨_, _, _, _, d⟩ => ⟨d.err, d.prevCached⟩

/-- R53, R86, R103: a START clears every slot and puts the seed in PREV. -/
theorem exec_start_cleared {i : Instr} {s t : State} (hi : IsStart i) (h : exec i s = .next t) :
    t.cache = clearCache ∧ t.prev = seedPixel := by
  rcases hi with ⟨c, n, rfl⟩ | ⟨n, bytes, rfl⟩
  · cases h
    exact ⟨by simp, by simp⟩
  · change execDecStart n bytes s = .next t at h
    unfold execDecStart at h
    split at h <;> cases h
    exact ⟨by simp, by simp⟩

/-- R84: the seed is in no cleared slot. -/
theorem not_prevCached_of_cleared {s : State} (hcache : s.cache = clearCache) (hprev : s.prev = seedPixel) :
    ¬ s.PrevCached := by
  unfold State.PrevCached
  rw [hcache, hprev, Cache.lookup_clear]
  decide

/-- Settles O52: a command that fails keeps CACHE and PREV, one that does not updates with PREV, and a START or reset clears. -/
theorem cacheHoldsPrevAfterPixel : Obligations.CacheHoldsPrevAfterPixel := by
  refine ⟨fun i s t hi h => ?_, fun i s t hi h => ?_, not_prevCached_of_cleared rfl rfl⟩
  · rcases exec_pixel_cases hi h with ⟨e, he, f⟩ | ⟨herr, hcached⟩
    · exact ⟨fun hn => absurd (f.err.symm.trans hn) he, fun _ => ⟨f.cache, f.prev⟩⟩
    · exact ⟨fun _ => hcached, fun hne => absurd herr hne⟩
  · obtain ⟨hcache, hprev⟩ := exec_start_cleared hi h
    exact not_prevCached_of_cleared hcache hprev

end Sys2Proof.Machine
end

section
/-! PROOFS. A byte space without holes is the list of its bytes: IN as the bytes still to be read, OUT as the bytes emitted
(20_memory.md R33, R35, R36). -/
namespace Sys2Proof.Machine

/-- The bytes of a space, in the order of their offsets. -/
def Memory.values (m : Memory) : List Byte := m.map Prod.snd

theorem Memory.eq_ofBytesAt (m : Memory) (a : Nat) (h : m.map Prod.fst = List.range' a m.length) :
    m = Memory.ofBytesAt a m.values := by
  induction m generalizing a with
  | nil => rfl
  | cons cell m ih =>
    rw [List.map_cons, List.length_cons, List.range'_succ, List.cons.injEq] at h
    obtain ⟨rfl, htail⟩ := h
    exact congrArg (cell :: ·) (ih _ htail)

/-- A space that holds the offsets below n holds the n bytes of a sequence. -/
theorem Memory.eq_ofBytes (m : Memory) (n : Nat) (h : m.map Prod.fst = List.range n) :
    m = Memory.ofBytes m.values ∧ m.values.length = n := by
  have hlen : m.length = n := by simpa using congrArg List.length h
  subst hlen
  exact ⟨Memory.eq_ofBytesAt m 0 (h.trans (List.range_eq_range' ..)), List.length_map ..⟩

theorem Memory.read_eq_values (m : Memory) (n : Nat) (h : m.map Prod.fst = List.range n) (k : Nat) :
    m.read k = m.values[k]? :=
  (congrArg (Memory.read · k) (Memory.eq_ofBytes m n h).1).trans (Memory.read_ofBytes m.values k)

theorem Memory.values_ofBytesAt (a : Nat) (bytes : List Byte) : (Memory.ofBytesAt a bytes).values = bytes := by
  induction bytes generalizing a with
  | nil => rfl
  | cons b bytes ih => exact congrArg (b :: ·) (ih (a + 1))

@[simp] theorem Memory.values_ofBytes (bytes : List Byte) : (Memory.ofBytes bytes).values = bytes :=
  Memory.values_ofBytesAt 0 bytes

/-- R36: bytes written past the offsets held are appended. -/
theorem Memory.values_writeBytes (m : Memory) (n : Nat) (bytes : List Byte) (h : m.map Prod.fst = List.range n) :
    (m.writeBytes n bytes).values = m.values ++ bytes := by
  have hlen := (Memory.eq_ofBytes m n h).2
  refine List.ext_getElem? fun k => ?_
  rw [← Memory.read_eq_values _ _ (Memory.domain_writeBytes m n bytes h), Memory.read_writeBytes,
    Memory.read_eq_values m n h, List.getElem?_append, hlen]
  by_cases hk : k < n
  · rw [if_pos hk, if_neg (by omega)]
  · rw [if_neg hk]
    by_cases hb : k < n + bytes.length
    · rw [if_pos ⟨by omega, hb⟩]
    · rw [if_neg (by omega), List.getElem?_eq_none (by omega), List.getElem?_eq_none (by omega)]

/-- The bytes of IN from POS on. -/
def State.unread (s : State) : List Byte := s.input.values.drop s.pos.toNat

/-- R21: a pixel decoded from n bytes has read the first n of the unread ones. -/
theorem Decoded.unread_eq {s t : State} {n : Nat} {px : Pixel} {owed : BitVec 6} (d : Decoded s t n px owed) :
    t.unread = s.unread.drop n := by
  unfold State.unread
  rw [d.input, d.pos, List.drop_drop]

/-- R35: IN from POS on, by offset. -/
theorem State.Inv.read_unread {s : State} (h : s.Inv) (k : Nat) :
    s.input.read (s.pos.toNat + k) = s.unread[k]? := by
  rw [Memory.read_eq_values _ _ h.inputDomain, State.unread, List.getElem?_drop]

theorem State.Inv.unread_length {s : State} (h : s.Inv) : s.pos.toNat + s.unread.length = s.len.toNat := by
  have hpos := h.posLe
  rw [State.unread, List.length_drop, (Memory.eq_ofBytes _ _ h.inputDomain).2]
  omega

/-- R36, R73: what an ENC_PIXEL returns is what it appends to OUT. -/
theorem exec_encPixel_appends {s t : State} {q : Pixel} {r : Response} (h : s.Inv)
    (ht : exec (.encPixel q) s = .next t) (hr : t.response = some r) :
    t.out.values = s.out.values ++ r.bytes := by
  have failed : ∀ {e}, Failed s t e → t.out.values = s.out.values ++ r.bytes := fun f => by
    rw [f.out, ← Option.some.inj (f.response.symm.trans hr), List.append_nil]
  rcases exec_encPixel_cases q s with ⟨-, hs⟩ | ⟨-, -, hs⟩ | ⟨-, -, -, hs⟩ | ⟨-, -, hs⟩ | ⟨g, -⟩
  · rw [hs] at ht; cases ht; exact failed (failed_ignore s)
  · rw [hs] at ht; cases ht; exact failed (failed_raise s _)
  · rw [hs] at ht; cases ht; exact failed (failed_raise s _)
  · rw [hs] at ht; cases ht
  · obtain ⟨hroom, rfl⟩ := exec_encPixel_next g ht
    have d := encodePixel_encoded s _ g hroom
    rw [encodePixel_out, Memory.values_writeBytes _ _ _ h.outDomain, ← Option.some.inj (d.response.symm.trans hr)]

end Sys2Proof.Machine
end

section
/-! PROOFS. The chunk the encoder selects is one the decoder can read, and decodes to the encoder's pixel (30_encoding.md R65, R69;
42_decoder.md R116); and DEC_STEP on IN that goes on with a chunk's bytes reads that chunk (R104, R112). -/
namespace Sys2Proof.Machine

/-! ### The selected chunk -/

/-- R89, R95 to R99: every chunk the selector can answer, with the guard it was taken under. -/
theorem selectChunk_cases (c : Cache) (prev p : Pixel) :
    (c.lookup (hash p) = p ∧ selectChunk c prev p = .index (hash p)) ∨
    selectChunk c prev p = .rgba p.r p.g p.b p.a ∨
    (p.a = prev.a ∧ ∃ dr dg db, dr = delta p.r prev.r ∧ dg = delta p.g prev.g ∧ db = delta p.b prev.b ∧
      ((diffFits dr dg db = true ∧ selectChunk c prev p = .diff dr dg db) ∨
       (lumaFits dr dg db = true ∧ selectChunk c prev p = .luma dg (dr - dg) (db - dg)) ∨
       selectChunk c prev p = .rgb p.r p.g p.b)) := by
  by_cases hhit : c.lookup (hash p) = p
  · exact .inl ⟨hhit, selectChunk_index c prev p hhit⟩
  · by_cases ha : p.a = prev.a
    · refine .inr (.inr ⟨ha, _, _, _, rfl, rfl, rfl, ?_⟩)
      rw [selectChunk_colour c prev p hhit ha, colourChunk]
      split
      · next hdiff => exact .inl ⟨hdiff, rfl⟩
      · split
        · next hluma => exact .inr (.inl ⟨hluma, rfl⟩)
        · exact .inr (.inr rfl)
    · exact .inr (.inl (selectChunk_rgba c prev p hhit ha))

/-- R65: the operands of a selected chunk are in range. -/
theorem selectChunk_wf (c : Cache) (prev p : Pixel) : (selectChunk c prev p).wf = true := by
  rcases selectChunk_cases c prev p with ⟨-, h⟩ | h | ⟨-, _, _, _, -, -, -, ⟨hfits, h⟩ | ⟨hfits, h⟩ | h⟩ <;> rw [h]
  · rfl
  · rfl
  · exact hfits
  · exact hfits
  · rfl

/-- R116: the deltas to the previous pixel, added back, give the pixel. -/
theorem addDeltas_delta (prev p : Pixel) (ha : p.a = prev.a) :
    Pixel.addDeltas prev (delta p.r prev.r) (delta p.g prev.g) (delta p.b prev.b) = p := by
  simp only [Pixel.addDeltas, addDelta_delta, ← ha]

/-- R116: decoded from the same PREV and CACHE, the selected chunk yields the pixel. -/
theorem chunkPixel_selectChunk (s : State) (p : Pixel) : chunkPixel s (selectChunk s.cache s.prev p) = p := by
  rcases selectChunk_cases s.cache s.prev p with
    ⟨hhit, h⟩ | h | ⟨ha, _, _, _, rfl, rfl, rfl, ⟨-, h⟩ | ⟨-, h⟩ | h⟩ <;> rw [h]
  · exact hhit
  · rfl
  · exact addDeltas_delta s.prev p ha
  · have hadd : ∀ dg d : Int, dg + (d - dg) = d := fun dg d => by omega
    rw [chunkPixel, hadd, hadd]
    exact addDeltas_delta s.prev p ha
  · simp only [chunkPixel, ← ha]

/-- A selected chunk is no RUN, so it leaves DRUN alone (R108). -/
theorem chunkOwed_selectChunk (s : State) (c : Cache) (prev p : Pixel) :
    chunkOwed s (selectChunk c prev p) = s.drun := by
  rcases selectChunk_cases c prev p with ⟨-, h⟩ | h | ⟨-, _, _, _, -, -, -, ⟨-, h⟩ | ⟨-, h⟩ | h⟩ <;> rw [h] <;> rfl

/-! ### Reading a chunk -/

/-- R69: no chunk's bytes begin another's. -/
theorem encodeChunk_append_inj {c c' : Chunk} {x y : List Byte} (hc : c.wf = true) (hc' : c'.wf = true)
    (h : encodeChunk c ++ x = encodeChunk c' ++ y) : c = c' ∧ x = y := by
  have hdecode := decodeChunk_encodeChunk c x hc
  rw [h, decodeChunk_encodeChunk c' y hc'] at hdecode
  cases hdecode
  exact ⟨rfl, rfl⟩

/-- R104: the chunk whose bytes stand at POS is fetched. -/
theorem fetchChunk_of_unread (s : State) (c : Chunk) (rest : List Byte) (hinv : s.Inv) (hc : c.wf = true)
    (h : s.unread = encodeChunk c ++ rest) :
    fetchChunk s = .ok c ∧ s.pos.toNat + (encodeChunk c).length ≤ s.len.toNat := by
  have hdecode := decodeChunk_encodeChunk c [] hc
  rw [List.append_nil] at hdecode
  have hread : ∀ k < (encodeChunk c).length, s.input.read (s.pos.toNat + k) = (encodeChunk c)[k]? := fun k hk => by
    rw [hinv.read_unread, h, List.getElem?_append_left hk]
  have hfits : s.pos.toNat + (encodeChunk c).length ≤ s.len.toNat := by
    rw [← hinv.unread_length, h, List.length_append]
    omega
  refine ⟨?_, hfits⟩
  cases hbytes : encodeChunk c with
  | nil => rw [hbytes] at hdecode; cases hdecode
  | cons b0 tail =>
    rw [hbytes] at hdecode hread hfits
    have hlen := encodeChunk_length_of_decode b0 tail c [] hdecode
    rw [hbytes] at hlen
    obtain ⟨c', hc', hfetch⟩ := fetchChunk_ok s b0 (b0 :: tail) (hread 0 (by simp)) (hlen ▸ hfits)
      ((Memory.readBytes_eq_some _ _ _ _).2 ⟨hlen, fun k hk => hread k (hlen ▸ hk)⟩)
    rw [hdecode] at hc'
    cases hc'
    exact hfetch

/-- R104: DEC_STEP decodes the chunk whose bytes stand at POS, and the bytes after it are left. -/
theorem exec_decStep_of_unread (s : State) (c : Chunk) (rest : List Byte) (hinv : s.Inv) (g : s.Decoding)
    (hc : c.wf = true) (h : s.unread = encodeChunk c ++ rest) :
    ∃ t, exec .decStep s = .next t ∧ Decoded s t (encodeChunk c).length (chunkPixel s c) (chunkOwed s c) ∧
      t.unread = rest := by
  obtain ⟨hfetch, hfits⟩ := fetchChunk_of_unread s c rest hinv hc h
  obtain ⟨t, ht, d⟩ := consumeChunk_next (encodeChunk c).length (chunkPixel s c) (chunkOwed s c) s g.err g.mode hfits
  refine ⟨t, ?_, d, ?_⟩
  · rw [exec_decStep, decodeGuard_decoding _ _ g, decodeAtPos, hfetch, ← ht]
    exact performChunk_eq c s
  · rw [d.unread_eq, h, List.drop_left]

end Sys2Proof.Machine
end

section
/-! PROOFS. Encoder and decoder in lockstep (40_color_cache.md R85): one ENC_PIXEL and one DEC_STEP on the stream it begins keep the
two engines' CACHE and PREV equal. An equal pixel's byte comes later than the pixel (R147), so the stream is followed as the bytes
still to come: while the encoder holds a run open, the decoder has read the RUN chunk the encoder has yet to emit. -/
namespace Sys2Proof.Machine

/-! ### An engine in a pass -/

/-- An engine in an error-free pass with n pixels still to do: MODE is `busy` until none is left, `done` then (R20, R24). -/
structure State.InPass (s : State) (busy done : Mode) (n : Nat) : Prop where
  inv : s.Inv
  err : s.err = .none
  port : s.port = []
  count : s.count.toNat = n
  mode : s.mode = if n = 0 then done else busy

theorem State.InPass.mode_busy {s : State} {busy done : Mode} {n : Nat} (h : s.InPass busy done (n + 1)) :
    s.mode = busy := h.mode

theorem State.InPass.encoding {s : State} {done : Mode} {n : Nat} (h : s.InPass .enc done (n + 1)) : s.Encoding :=
  ⟨h.err, h.mode_busy⟩

theorem State.InPass.decoding {s : State} {done : Mode} {n : Nat} (h : s.InPass .dec done (n + 1))
    (hdrun : s.drun = 0) : s.Decoding :=
  ⟨h.err, h.mode_busy, hdrun⟩

/-- R20: COUNT is 1 exactly at the last pixel. -/
theorem State.InPass.count_eq_one {s : State} {busy done : Mode} {n : Nat} (h : s.InPass busy done (n + 1)) :
    s.count = 1 ↔ n = 0 := by
  have hcount := h.count
  rw [← BitVec.toNat_inj, hcount]
  simp

/-- R20: one pixel done. -/
theorem State.InPass.next {s t : State} {busy done : Mode} {n : Nat} (h : s.InPass busy done (n + 1)) (hinv : t.Inv)
    (herr : t.err = .none) (hport : t.port = s.port) (hcount : t.count = s.count - 1)
    (hmode : t.mode = if s.count = 1 then done else busy) : t.InPass busy done n where
  inv := hinv
  err := herr
  port := hport.trans h.port
  count := by
    have hle := h.count
    rw [hcount, BitVec.toNat_sub_of_le (by bv_omega)]
    simp [hle]
  mode := by simpa only [h.count_eq_one] using hmode

theorem withPort_nil {s : State} (h : s.port = []) : ({ s with port := [] } : State) = s := by
  rw [← h]

theorem State.InPass.issue_encPixel {s : State} {busy done : Mode} {n : Nat} (h : s.InPass busy done n) (q : Pixel) :
    issue (encPixelCommand q) s = exec (.encPixel q) s := by
  rw [Machine.issue_encPixel, withPort_nil h.port]

theorem State.InPass.issue_decStep {s : State} {busy done : Mode} {n : Nat} (h : s.InPass busy done n) :
    issue decStepCommand s = exec .decStep s := by
  rw [Machine.issue_decStep, withPort_nil h.port]

/-! ### The pixels of a pass -/

/-- R145: the next command is issued once the one before it has answered. -/
theorem issueAll_cons {c : Command} {cs : List Command} {s t : State} (h : issue c s = .next t) :
    issueAll (c :: cs) s = issueAll cs t := by
  simp only [issueAll, h]

/-- R120: the loop over the pixels, one pixel at a time. -/
theorem encodePixels_cons {q : Pixel} {qs : List Pixel} {s e : State} {bytes : List Byte}
    (h : encodePixels (q :: qs) s = .ok (bytes, e)) :
    ∃ t r rest, issue (encPixelCommand q) s = .next t ∧ t.response = some r ∧
      encodePixels qs t = .ok (rest, e) ∧ bytes = r.bytes ++ rest := by
  rw [encodePixels] at h
  split at h
  · next t ht =>
    split at h
    · next r rest u hr hrest =>
      cases h
      exact ⟨t, r, rest, ht, hr, hrest, rfl⟩
    · cases h
    · cases h
  · cases h
  · cases h

/-- R73, R147: where the commands are issued without a stop, the host has the bytes of every response. -/
theorem encodePixels_of_issueAll {qs : List Pixel} {s e : State}
    (h : issueAll (qs.map encPixelCommand) s = .next e) : ∃ bytes, encodePixels qs s = .ok (bytes, e) := by
  induction qs generalizing s with
  | nil => cases h; exact ⟨[], rfl⟩
  | cons q qs ih =>
    rw [List.map_cons, issueAll] at h
    split at h
    · next t ht =>
      obtain ⟨rest, hrest⟩ := ih h
      have hexec := ht
      rw [issue_encPixel] at hexec
      obtain ⟨r, hr, -⟩ := exec_reports hexec
      exact ⟨r.bytes ++ rest, by simp only [encodePixels, ht, hr, hrest]⟩
    · cases h
    · cases h

/-- R36, R147: OUT at the end of the loop holds the responses' bytes. -/
theorem encodePixels_appends {qs : List Pixel} {s e : State} {bytes : List Byte} (hinv : s.Inv)
    (h : encodePixels qs s = .ok (bytes, e)) : e.out.values = s.out.values ++ bytes := by
  induction qs generalizing s bytes with
  | nil => cases h; rw [List.append_nil]
  | cons q qs ih =>
    obtain ⟨t, r, rest, ht, hr, hrest, rfl⟩ := encodePixels_cons h
    rw [issue_encPixel] at ht
    rw [ih (exec_encPixel_keeps_inv (hinv.withPort []) ht) hrest, exec_encPixel_appends (hinv.withPort []) ht hr,
      List.append_assoc]

/-- The run that encoding a pixel leaves open (R92, R93). -/
def runAfter (p : Pixel) (s : State) : BitVec 6 := if p = s.prev ∧ ¬ runCloses s = true then s.run + 1 else 0

theorem runAfter_open {p : Pixel} {s : State} (hp : p = s.prev) (hopen : ¬ runCloses s = true) :
    runAfter p s = s.run + 1 := if_pos ⟨hp, hopen⟩

theorem runAfter_closed {p : Pixel} {s : State} (hcloses : runCloses s = true) : runAfter p s = 0 :=
  if_neg fun h => h.2 hcloses

theorem runAfter_differing {p : Pixel} {s : State} (hp : p ≠ s.prev) : runAfter p s = 0 :=
  if_neg fun h => hp h.1

/-- R88: the first pixel of the loop is encoded, its bytes before the others', and the pass goes on. -/
theorem State.InPass.encodePixels_cons {q : Pixel} {qs : List Pixel} {s e : State} {bytes : List Byte}
    (hs : s.InPass .enc .encDone (qs.length + 1)) (h : encodePixels (q :: qs) s = .ok (bytes, e)) :
    ∃ t rest, issue (encPixelCommand q) s = .next t ∧ encodePixels qs t = .ok (rest, e) ∧
      bytes = pixelBytes (effectivePixel s.chan4 q) s ++ rest ∧ t.InPass .enc .encDone qs.length ∧
      Encoded s t (effectivePixel s.chan4 q) (pixelBytes (effectivePixel s.chan4 q) s)
        (runAfter (effectivePixel s.chan4 q) s) := by
  obtain ⟨t, r, rest, ht, hr, hrest, rfl⟩ := Machine.encodePixels_cons h
  have hexec := ht
  rw [hs.issue_encPixel] at hexec
  have hinv := exec_encPixel_keeps_inv hs.inv hexec
  obtain ⟨hroom, rfl⟩ := exec_encPixel_next hs.encoding hexec
  have d := encodePixel_encoded s _ hs.encoding hroom
  refine ⟨_, rest, ht, hrest, ?_, hs.next hinv d.err d.port d.count d.mode, d⟩
  rw [← Option.some.inj (d.response.symm.trans hr)]

/-! ### Runs (R92 to R94, R108) -/

/-- What the encoder, with `run` pixels of an open run, has yet to emit is what the decoder, with `owed` repetitions owed, has yet
to read, and before it the RUN chunk of the open run: the decoder has read it, with the `owed` pixels that are still to extend it. -/
inductive RunSynced (run owed : BitVec 6) (unread : List Byte) : List Byte → Prop where
  | closed (hrun : run = 0) (howed : owed = 0) : RunSynced run owed unread unread
  | opened (hrun : run ≠ 0) (hmax : run.toNat + owed.toNat ≤ Config.maxRun) :
      RunSynced run owed unread (encodeChunk (.run (run.toNat + owed.toNat)) ++ unread)

theorem RunSynced.append {run owed : BitVec 6} {unread emitted : List Byte} (h : RunSynced run owed unread emitted)
    (trail : List Byte) : RunSynced run owed (unread ++ trail) (emitted ++ trail) := by
  cases h with
  | closed hrun howed => exact .closed hrun howed
  | opened hrun hmax => rw [List.append_assoc]; exact .opened hrun hmax

theorem one_le_toNat {run : BitVec 6} (h : run ≠ 0) : 1 ≤ run.toNat := by
  bv_omega

theorem run_wf {len : Nat} (hpos : 1 ≤ len) (hmax : len ≤ Config.maxRun) : (Chunk.run len).wf = true :=
  decide_eq_true ⟨hpos, hmax⟩

/-- R93: the flush of an open run is its RUN chunk. -/
theorem flushBytes_of_open {run : BitVec 6} (h : run ≠ 0) : flushBytes run = encodeChunk (.run run.toNat) := by
  rw [← flushBytes_eq, if_neg h, runBytes]

/-- R92: a pixel equal to PREV is one pixel more of the run whose chunk comes next, whether it closes the run or leaves it open. -/
theorem equalPixel_synced {s : State} {p : Pixel} {rest unread : List Byte} {owed : BitVec 6} (hinv : s.Inv)
    (hp : p = s.prev) (h : RunSynced (runAfter p s) owed unread rest) :
    pixelBytes p s ++ rest = encodeChunk (.run (s.run.toNat + 1 + owed.toNat)) ++ unread ∧
      s.run.toNat + 1 + owed.toNat ≤ Config.maxRun ∧ (s.count = 1 → owed = 0) := by
  have hle := hinv.runLe
  have hsucc : (s.run + 1).toNat = s.run.toNat + 1 := by bv_omega
  rw [pixelBytes_equal p s hp]
  by_cases hcloses : runCloses s = true
  · rw [runAfter_closed hcloses] at h
    cases h with
    | closed _ howed =>
      subst howed
      refine ⟨?_, Nat.succ_le_succ hle, fun _ => rfl⟩
      rw [runPixelBytes, if_pos hcloses, runBytes, hsucc]
      rfl
    | opened hrun _ => exact absurd rfl hrun
  · rw [runAfter_open hp hcloses] at h
    cases h with
    | closed hrun _ => bv_omega
    | opened _ hmax =>
      rw [hsucc] at hmax ⊢
      exact ⟨by rw [runPixelBytes_open s hcloses, List.nil_append], hmax,
        fun hlast => absurd (runCloses_last s hlast) hcloses⟩

/-- R93, R94: an encoder that goes on to the image's end flushes its open run before anything else. -/
theorem exists_runSynced {qs : List Pixel} {s e : State} {bytes : List Byte} (hs : s.InPass .enc .encDone qs.length)
    (h : encodePixels qs s = .ok (bytes, e)) : ∃ owed unread, RunSynced s.run owed unread bytes := by
  induction qs generalizing s bytes with
  | nil =>
    refine ⟨0, bytes, .closed (Decidable.byContradiction fun hopen => ?_) rfl⟩
    exact absurd (hs.mode.symm.trans (hs.inv.runOnlyEnc hopen)) (by decide)
  | cons q qs ih =>
    by_cases hopen : s.run = 0
    · exact ⟨0, bytes, .closed hopen rfl⟩
    · obtain ⟨t, rest, -, hrest, rfl, ht, d⟩ := hs.encodePixels_cons h
      by_cases hp : effectivePixel s.chan4 q = s.prev
      · obtain ⟨owed, unread, hsync⟩ := ih ht hrest
        obtain ⟨hbytes, hmax, -⟩ := equalPixel_synced hs.inv hp (d.run ▸ hsync)
        have howed : s.run.toNat + 1 + owed.toNat = s.run.toNat + (owed + 1).toNat := by
          simp only [Config.maxRun] at hmax
          bv_omega
        rw [howed] at hbytes hmax
        exact ⟨owed + 1, unread, hbytes ▸ .opened hopen hmax⟩
      · rw [pixelBytes_differing _ s hp, differingBytes_eq, flushBytes_of_open hopen, List.append_assoc]
        exact ⟨0, _, .opened hopen (Nat.le_succ_of_le hs.inv.runLe)⟩

/-! ### The decoder's step -/

/-- A differing pixel ends the run: the decoder owes nothing, and the pixel's chunk is next. -/
theorem RunSynced.flushed {run owed : BitVec 6} {unread rest : List Byte}
    (h : RunSynced run owed unread (flushBytes run ++ rest)) (hle : run.toNat ≤ 61) : owed = 0 ∧ unread = rest := by
  generalize hemitted : flushBytes run ++ rest = emitted at h
  cases h with
  | closed hrun howed =>
    subst hrun
    exact ⟨howed, hemitted.symm⟩
  | opened hrun hmax =>
    have hpos := one_le_toNat hrun
    rw [flushBytes_of_open hrun] at hemitted
    obtain ⟨hlen, hrest⟩ := encodeChunk_append_inj (run_wf hpos (Nat.le_succ_of_le hle))
      (run_wf (by omega) hmax) hemitted
    rw [Chunk.run.injEq] at hlen
    exact ⟨by bv_omega, hrest.symm⟩

/-- A run that goes on: its chunk is next where the run is not open yet, and otherwise the decoder has read it. -/
theorem RunSynced.extended {run owed : BitVec 6} {unread rest : List Byte} {more : Nat}
    (h : RunSynced run owed unread (encodeChunk (.run (run.toNat + 1 + more)) ++ rest))
    (hmax : run.toNat + 1 + more ≤ Config.maxRun) :
    (owed = 0 ∧ unread = encodeChunk (.run (more + 1)) ++ rest) ∨ (owed.toNat = more + 1 ∧ unread = rest) := by
  generalize hemitted : encodeChunk (.run (run.toNat + 1 + more)) ++ rest = emitted at h
  cases h with
  | closed hrun howed =>
    subst hrun
    exact .inl ⟨howed, hemitted ▸ by simp [Nat.add_comm]⟩
  | opened hrun hmax' =>
    have hpos := one_le_toNat hrun
    obtain ⟨hlen, hrest⟩ := encodeChunk_append_inj (run_wf (by omega) hmax) (run_wf (by omega) hmax') hemitted
    rw [Chunk.run.injEq] at hlen
    exact .inr ⟨by omega, hrest.symm⟩

/-- R108, R111: the DEC_STEP of a pixel in a run, which reads the run's chunk or repeats PREV. -/
theorem exec_decStep_run {s : State} {run owed : BitVec 6} {n : Nat} {rest : List Byte}
    (hs : s.InPass .dec .decDone (n + 1))
    (h : RunSynced run s.drun s.unread (encodeChunk (.run (run.toNat + 1 + owed.toNat)) ++ rest))
    (hmax : run.toNat + 1 + owed.toNat ≤ Config.maxRun) :
    ∃ t k, exec .decStep s = .next t ∧ Decoded s t k s.prev owed ∧ t.unread = rest := by
  rcases h.extended hmax with ⟨hdrun, hunread⟩ | ⟨hdrun, hunread⟩
  · obtain ⟨t, ht, d, hrest⟩ := exec_decStep_of_unread s (.run (owed.toNat + 1)) rest hs.inv (hs.decoding hdrun)
      (run_wf (by omega) (by omega)) hunread
    rw [show chunkOwed s (.run (owed.toNat + 1)) = owed by simp [chunkOwed]] at d
    exact ⟨t, _, ht, d, hrest⟩
  · obtain ⟨t, ht, d⟩ := repeatPixel_next s hs.err hs.mode_busy
    rw [show s.drun - 1 = owed by bv_omega] at d
    refine ⟨t, 0, ?_, d, d.unread_eq.trans hunread⟩
    rw [exec_decStep, decodeGuard_owed _ s hs.err hs.mode_busy (by bv_omega), ht]

/-- R116: the DEC_STEP of a pixel that differs from PREV, which reads the chunk the encoder selected for it. -/
theorem exec_decStep_selected {s : State} {run : BitVec 6} {n : Nat} {p : Pixel} {rest : List Byte}
    (hs : s.InPass .dec .decDone (n + 1)) (hle : run.toNat ≤ 61)
    (h : RunSynced run s.drun s.unread (flushBytes run ++ (encodeChunk (selectChunk s.cache s.prev p) ++ rest))) :
    ∃ t k, exec .decStep s = .next t ∧ Decoded s t k p 0 ∧ t.unread = rest := by
  obtain ⟨hdrun, hunread⟩ := h.flushed hle
  obtain ⟨t, ht, d, hrest⟩ := exec_decStep_of_unread s _ rest hs.inv (hs.decoding hdrun) (selectChunk_wf _ _ _) hunread
  rw [chunkPixel_selectChunk, chunkOwed_selectChunk, hdrun] at d
  exact ⟨t, _, ht, d, hrest⟩

/-! ### Lockstep -/

/-- The encoder `s` and the decoder `d` after the same number of pixels, n more to come: `emitted` is what the encoder has yet to
emit, with any bytes after the stream. -/
structure InLockstep (n : Nat) (emitted : List Byte) (s d : State) : Prop where
  enc : s.InPass .enc .encDone n
  dec : d.InPass .dec .decDone n
  cache : d.cache = s.cache
  prev : d.prev = s.prev
  synced : RunSynced s.run d.drun d.unread emitted

/-- R116: whatever pixel the encoder encodes, the decoder's next step yields it and stays synchronised. -/
theorem InLockstep.decodes {n : Nat} {s d : State} {p : Pixel} {rest unread : List Byte} {owed : BitVec 6}
    (h : InLockstep (n + 1) (pixelBytes p s ++ rest) s d) (hrest : RunSynced (runAfter p s) owed unread rest) :
    ∃ u k owed', exec .decStep d = .next u ∧ Decoded d u k p owed' ∧
      RunSynced (runAfter p s) u.drun u.unread rest := by
  have hcount : d.count = 1 ↔ s.count = 1 := h.dec.count_eq_one.trans h.enc.count_eq_one.symm
  have hsync := h.synced
  by_cases hp : p = s.prev
  · obtain ⟨hbytes, hmax, hlast⟩ := equalPixel_synced h.enc.inv hp hrest
    rw [hbytes] at hsync
    obtain ⟨u, k, hu, hd, hunread⟩ := exec_decStep_run h.dec hsync hmax
    have hdrun : u.drun = owed := by
      rw [hd.drun]
      split
      · next hone => exact (hlast (hcount.1 hone)).symm
      · rfl
    rw [h.prev, ← hp] at hd
    exact ⟨u, k, owed, hu, hd, hdrun ▸ hunread ▸ hrest⟩
  · rw [pixelBytes_differing p s hp, differingBytes_eq, List.append_assoc, ← h.cache, ← h.prev] at hsync
    obtain ⟨u, k, hu, hd, hunread⟩ := exec_decStep_selected h.dec h.enc.inv.runLe hsync
    exact ⟨u, k, 0, hu, hd, hunread ▸ .closed (runAfter_differing hp) (hd.drun.trans (ite_self 0))⟩

/-- R85, one pixel: an ENC_PIXEL and a DEC_STEP keep the engines in lockstep. -/
theorem InLockstep.step {q : Pixel} {qs : List Pixel} {bytes trail : List Byte} {s d e : State}
    (h : InLockstep (qs.length + 1) (bytes ++ trail) s d) (he : encodePixels (q :: qs) s = .ok (bytes, e)) :
    ∃ t u rest k owed, issue (encPixelCommand q) s = .next t ∧ issue decStepCommand d = .next u ∧
      encodePixels qs t = .ok (rest, e) ∧ Decoded d u k (effectivePixel s.chan4 q) owed ∧
      InLockstep qs.length (rest ++ trail) t u := by
  obtain ⟨t, rest, ht, hrest, rfl, htpass, henc⟩ := h.enc.encodePixels_cons he
  obtain ⟨owed, unread, hsync⟩ := exists_runSynced htpass hrest
  rw [henc.run] at hsync
  rw [List.append_assoc] at h
  obtain ⟨u, k, owed', hu, hdec, hsync'⟩ := h.decodes (hsync.append trail)
  refine ⟨t, u, rest, k, owed', ht, h.dec.issue_decStep.trans hu, hrest, hdec, htpass, ?_, ?_, ?_, henc.run ▸ hsync'⟩
  · exact h.dec.next (exec_decStep_keeps_inv h.dec.inv hu) hdec.err hdec.port hdec.count hdec.mode
  · rw [hdec.cache_eq, henc.cache_eq, h.cache]
  · rw [hdec.prev, henc.prev]

/-- R85: the engines after k pixels. -/
theorem InLockstep.after {qs : List Pixel} {bytes trail : List Byte} {s d e : State}
    (h : InLockstep qs.length (bytes ++ trail) s d) (he : encodePixels qs s = .ok (bytes, e)) (k : Nat)
    (hk : k ≤ qs.length) :
    ∃ t u, issueAll ((qs.take k).map encPixelCommand) s = .next t ∧
      issueAll (List.replicate k decStepCommand) d = .next u ∧ u.err = .none ∧ u.cache = t.cache ∧ u.prev = t.prev := by
  induction k generalizing qs bytes s d with
  | zero => exact ⟨s, d, rfl, rfl, h.dec.err, h.cache, h.prev⟩
  | succ k ih =>
    cases qs with
    | nil => cases hk
    | cons q qs =>
      obtain ⟨t, u, rest, -, -, ht, hu, hrest, -, hnext⟩ := h.step he
      obtain ⟨t', u', ht', hu', hsame⟩ := ih hnext hrest (Nat.le_of_succ_le_succ hk)
      refine ⟨t', u', ?_, ?_, hsame⟩
      · rw [List.take_succ_cons, List.map_cons, issueAll_cons ht, ht']
      · rw [List.replicate_succ, issueAll_cons hu, hu']

/-! ### The two STARTs (R86, R103) -/

/-- A pass of n pixels just started. -/
structure State.Started (s : State) (busy done : Mode) (n : Nat) : Prop where
  pass : s.InPass busy done n
  cache : s.cache = clearCache
  prev : s.prev = seedPixel
  run : s.run = 0
  drun : s.drun = 0
  pos : s.pos = 0
  out : s.out = []

/-- R86, R103, R143: what the two STARTs have in common, whatever the state before. -/
theorem startCount_clearPass_started (s : State) (chan4 : Bool) (bytes : List Byte) (hlen : bytes.length < 2 ^ 64)
    (n : Nat) (hpos : 0 < n) (hn : n < 2 ^ 64) (busy done : Mode) (hbusy : busy = .enc ∨ busy = .dec) (e : Err)
    (hport : s.port = []) :
    (State.startCount
      { s.clearPass with chan4 := chan4, input := Memory.ofBytes bytes, len := BitVec.ofNat 64 bytes.length }
      (BitVec.ofNat 64 n) busy e).Started busy done n where
  pass :=
    have hcount : ¬ BitVec.ofNat 64 n = 0#64 := by bv_omega
    { inv := startCount_clearPass_inv s chan4 bytes hlen _ busy hbusy e
      err := by simp [hcount]
      port := by simp [hport]
      count := by rw [startCount_count, BitVec.toNat_ofNat, Nat.mod_eq_of_lt hn]
      mode := by simp [hcount, Nat.ne_of_gt hpos] }
  cache := by simp
  prev := by simp
  run := by simp
  drun := by simp
  pos := by simp
  out := by simp

theorem issue_encStart_started (s : State) (chan4 : Bool) (n : Nat) (hpos : 0 < n) (hn : n < 2 ^ 64) :
    ∃ t, issue (encStartCommand chan4 (BitVec.ofNat 64 n)) s = .next t ∧ t.Started .enc .encDone n :=
  ⟨_, issue_encStart .., startCount_clearPass_started { s with port := [] } chan4 [] (by decide) n hpos hn .enc .encDone
    (.inl rfl) .validation rfl⟩

theorem exec_decStart_next (s : State) (n : Count) (bytes : List Byte) (hlen : bytes.length < 2 ^ 64) :
    exec (.decStart n bytes) s = .next (State.startCount
      { s.clearPass with chan4 := false, input := Memory.ofBytes bytes, len := BitVec.ofNat 64 bytes.length }
      n .dec .format) :=
  if_neg (Nat.not_le.2 hlen)

theorem issue_decStart_started (s : State) (bytes : List Byte) (n : Nat) (hpos : 0 < n) (hn : n < 2 ^ 64)
    (hlen : bytes.length < 2 ^ 64) :
    ∃ t, issue (decStartCommand (BitVec.ofNat 64 n) bytes) s = .next t ∧ t.Started .dec .decDone n ∧
      t.unread = bytes := by
  have ht := startCount_clearPass_started { s with port := [] } false bytes hlen n hpos hn .dec .decDone (.inr rfl)
    .format rfl
  refine ⟨_, (issue_decStart ..).trans (exec_decStart_next _ _ bytes hlen), ht, ?_⟩
  rw [State.unread, ht.pos, startCount_input]
  exact Memory.values_ofBytes bytes

/-- R85, before the first pixel: both caches cleared, both PREVs the seed, and the decoder handed what the encoder is to emit. -/
theorem inLockstep_of_started {s d : State} {n : Nat} (hs : s.Started .enc .encDone n) (hd : d.Started .dec .decDone n) :
    InLockstep n d.unread s d where
  enc := hs.pass
  dec := hd.pass
  cache := hd.cache.trans hs.cache.symm
  prev := hd.prev.trans hs.prev.symm
  synced := .closed hs.run hd.drun

/-- Settles O55: the host hands the decoder OUT, which holds the bytes of the encoder's responses, and from the two STARTs on each
pixel keeps the engines in lockstep. -/
theorem encoderAndDecoderStayInLockstep : Obligations.EncoderAndDecoderStayInLockstep := by
  intro c ps trail s s' e hpos hn hrun hlen k hk
  obtain ⟨s₀, hs₀, hstart⟩ := issue_encStart_started s c ps.length hpos hn
  rw [issueAll_cons hs₀] at hrun
  obtain ⟨bytes, hbytes⟩ := encodePixels_of_issueAll hrun
  have hout : e.out.map Prod.snd = bytes := by
    have hvalues := encodePixels_appends hstart.pass.inv hbytes
    rwa [hstart.out] at hvalues
  rw [hout] at hlen ⊢
  obtain ⟨d₀, hd₀, hstart', hunread⟩ := issue_decStart_started s' (bytes ++ trail) ps.length hpos hn hlen
  rw [issueAll_cons hs₀, issueAll_cons hd₀]
  exact (hunread ▸ inLockstep_of_started hstart hstart').after hbytes k hk

end Sys2Proof.Machine
end

section
/-! PROOFS. ENC_START (41_encoder.md R86) and one ENC_PIXEL (R87 to R102): the channel mode, the run path, and the chunk of a
differing pixel with its bytes by the rule's own formula. What an ENC_PIXEL does to the state is `Encoded`, by `encodePixel_encoded`
and `encodeDifferingPixel_encoded`; here stands which bytes it emits. -/
namespace Sys2Proof

/-! ### Chunk bytes by their rules' formulas -/

/-- R65: a value in a field's range, as a byte, is the field. -/
theorem ofInt_eq_biased {w : Nat} (v bias : Int) (hw : w ≤ 8) (h0 : 0 ≤ v + bias) (h1 : v + bias < 2 ^ w) :
    BitVec.ofInt 8 (v + bias) = (biased w v bias).setWidth 8 := by
  have hfield := toNat_biased w v bias h0 h1
  have hle : (biased w v bias).toNat < 2 ^ 8 :=
    Nat.lt_of_lt_of_le (biased w v bias).isLt (Nat.pow_le_pow_right (by decide) hw)
  apply BitVec.eq_of_toNat_eq
  rw [BitVec.toNat_setWidth, BitVec.toNat_ofInt, ← hfield]
  rfl

theorem indexByte_eq (i : Slot) : (0b00#2 ++ i : BitVec (2 + 6)) = BitVec.ofNat 8 i.toNat :=
  BitVec.eq_of_toNat_eq ((indexByte_toNat i).trans
    ((BitVec.toNat_ofNat ..).trans (Nat.mod_eq_of_lt (Nat.lt_trans i.isLt (by decide)))).symm)

theorem diffByte_eq : ∀ x y z : BitVec 2, (0b01#2 ++ x ++ y ++ z : BitVec (2 + 2 + 2 + 2)) =
    0x40#8 ||| x.setWidth 8 <<< 4 ||| y.setWidth 8 <<< 2 ||| z.setWidth 8 := by decide

theorem lumaByte_eq : ∀ x : BitVec 6, (0b10#2 ++ x : BitVec (2 + 6)) = 0x80#8 ||| x.setWidth 8 := by decide

theorem nibbles_eq : ∀ x y : BitVec 4, (x ++ y : BitVec (4 + 4)) = x.setWidth 8 <<< 4 ||| y.setWidth 8 := by decide

/-- R55. -/
theorem encodeChunk_index (i : Slot) : encodeChunk (.index i) = [BitVec.ofNat 8 i.toNat] :=
  congrArg (fun b : Byte => [b]) (indexByte_eq i)

/-- R56. -/
theorem encodeChunk_diff (dr dg db : Int) (h : -2 ≤ dr ∧ dr ≤ 1 ∧ -2 ≤ dg ∧ dg ≤ 1 ∧ -2 ≤ db ∧ db ≤ 1) :
    encodeChunk (.diff dr dg db) =
      [0x40#8 ||| BitVec.ofInt 8 (dr + 2) <<< 4 ||| BitVec.ofInt 8 (dg + 2) <<< 2 ||| BitVec.ofInt 8 (db + 2)] := by
  rw [ofInt_eq_biased (w := 2) dr 2 (by decide) (by omega) (by omega),
    ofInt_eq_biased (w := 2) dg 2 (by decide) (by omega) (by omega),
    ofInt_eq_biased (w := 2) db 2 (by decide) (by omega) (by omega), ← diffByte_eq]
  rfl

/-- R57. -/
theorem encodeChunk_luma (dg du dv : Int) (h : -32 ≤ dg ∧ dg ≤ 31 ∧ -8 ≤ du ∧ du ≤ 7 ∧ -8 ≤ dv ∧ dv ≤ 7) :
    encodeChunk (.luma dg du dv) =
      [0x80#8 ||| BitVec.ofInt 8 (dg + 32), BitVec.ofInt 8 (du + 8) <<< 4 ||| BitVec.ofInt 8 (dv + 8)] := by
  rw [ofInt_eq_biased (w := 6) dg 32 (by decide) (by omega) (by omega),
    ofInt_eq_biased (w := 4) du 8 (by decide) (by omega) (by omega),
    ofInt_eq_biased (w := 4) dv 8 (by decide) (by omega) (by omega), ← lumaByte_eq, ← nibbles_eq]
  rfl

/-- R60, R62: only an RGBA chunk begins with 0xFF. -/
theorem exists_rgba_of_head {c : Chunk} (hc : c.wf = true) (h : (encodeChunk c).head? = some 0xFF#8) :
    ∃ r g b a, c = .rgba r g b a := by
  obtain ⟨rest, hbytes⟩ := List.head?_eq_some_iff.1 h
  have hdecode := decodeChunk_encodeChunk c [] hc
  rw [List.append_nil, hbytes, decodeChunk_rgba] at hdecode
  split at hdecode <;> cases hdecode
  exact ⟨_, _, _, _, rfl⟩

end Sys2Proof

namespace Sys2Proof.Machine

/-! ### Starting a pass (R86) -/

/-- Settles O16: `clearPass` empties everything of the last pass, and `startCount` decides between the new pass and the error. -/
theorem encStartInitialises : Obligations.EncStartInitialises := by
  intro c n s
  refine ⟨_, rfl, fun i => ?_, startCount_prev .., startCount_run .., startCount_drun .., startCount_pos ..,
    startCount_len .., fun a => ?_, fun a => ?_, startCount_outLen .., startCount_chan4 .., startCount_count ..,
    startCount_port .., startCount_mode .., startCount_err .., startCount_response_status ..⟩
  · rw [startCount_cache]
    exact Cache.lookup_clear i
  · rw [startCount_input]
    rfl
  · rw [startCount_out]
    rfl

/-! ### The channel mode (R87) -/

/-- R87: ENC_PIXEL uses its pixel only under the channel mode. -/
theorem exec_encPixel_congr {q q' : Pixel} {s : State} (h : effectivePixel s.chan4 q = effectivePixel s.chan4 q') :
    exec (.encPixel q) s = exec (.encPixel q') s := by
  change execEncPixel q s = execEncPixel q' s
  unfold execEncPixel
  rw [h]

/-- R88, R101: every pixel that OUT has room for is encoded. -/
theorem exec_encPixel_encoded (q : Pixel) (s : State) (g : s.Encoding)
    (hroom : s.hasRoom (pixelBytes (effectivePixel s.chan4 q) s).length) :
    ∃ t, exec (.encPixel q) s = .next t ∧
      Encoded s t (effectivePixel s.chan4 q) (pixelBytes (effectivePixel s.chan4 q) s)
        (runAfter (effectivePixel s.chan4 q) s) :=
  ⟨_, exec_encPixel_room q s g hroom, encodePixel_encoded s _ g hroom⟩

/-- R73: the response to an ENC_PIXEL that answers a next state holds its pixel's bytes. -/
theorem exec_encPixel_bytes {q : Pixel} {s t : State} {r : Response} (g : s.Encoding)
    (ht : exec (.encPixel q) s = .next t) (hr : t.response = some r) :
    r.bytes = pixelBytes (effectivePixel s.chan4 q) s ∧ t.outLen.toNat = s.outLen.toNat + r.bytes.length := by
  obtain ⟨hroom, rfl⟩ := exec_encPixel_next g ht
  have d := encodePixel_encoded s _ g hroom
  have hbytes : r.bytes = pixelBytes (effectivePixel s.chan4 q) s := by
    rw [← Option.some.inj (d.response.symm.trans hr)]
  exact ⟨hbytes, hbytes ▸ d.outLen⟩

/-- R92: past the place of a flush, the run path emits at most a RUN chunk of one pixel. -/
theorem drop_runPixelBytes (s : State) (hr : s.run.toNat ≤ 61) :
    (runPixelBytes s).drop (flushBytes s.run).length = [] ∨
      (runPixelBytes s).drop (flushBytes s.run).length = [0xC0#8] := by
  by_cases hcloses : runCloses s = true
  · rw [runPixelBytes_closed s hr hcloses]
    by_cases hrun : s.run = 0
    · rw [hrun]
      exact .inr rfl
    · rw [flushBytes, if_neg hrun]
      exact .inl rfl
  · rw [runPixelBytes_open s hcloses, List.drop_nil]
    exact .inl rfl

/-- R87, R89: with alpha unchanged no RGBA chunk is selected. -/
theorem selectChunk_ne_rgba {c : Cache} {prev p : Pixel} (ha : p.a = prev.a) (r g b a : Byte) :
    selectChunk c prev p ≠ .rgba r g b a := by
  by_cases hhit : c.lookup (hash p) = p
  · rw [selectChunk_index c prev p hhit]
    exact Chunk.noConfusion
  · rw [selectChunk_colour c prev p hhit ha, colourChunk]
    split
    · exact Chunk.noConfusion
    · split <;> exact Chunk.noConfusion

/-- Settles O27: the pixel enters through `effectivePixel`; in channel-3 mode both it and PREV have alpha 255, so no RGBA chunk is
selected, and only that begins with 0xFF. -/
theorem channelModeForcesAlpha : Obligations.ChannelModeForcesAlpha := by
  intro p s
  refine ⟨fun hchan => exec_encPixel_congr (by rw [hchan]; rfl), fun g hroom => ?_, fun g hinv hchan t r ht hr => ?_⟩
  · obtain ⟨t, ht, d⟩ := exec_encPixel_encoded p s g hroom
    exact ⟨t, ht, d.prev⟩
  · rw [(exec_encPixel_bytes g ht hr).1]
    by_cases hp : effectivePixel s.chan4 p = s.prev
    · rw [pixelBytes_equal _ s hp]
      rcases drop_runPixelBytes s hinv.runLe with h | h <;> rw [h] <;> decide
    · rw [pixelBytes_differing _ s hp, differingBytes_eq, List.drop_left]
      intro hhead
      obtain ⟨_, _, _, _, hrgba⟩ := exists_rgba_of_head (selectChunk_wf ..) hhead
      refine selectChunk_ne_rgba ?_ _ _ _ _ hrgba
      rw [hchan, hinv.opaqueAlpha (.inl g.mode) hchan]
      exact effectivePixel_alpha p

/-! ### Pixels equal to PREV (R92) -/

/-- R92: ENC_PIXEL of a pixel equal to PREV. -/
theorem exec_encPixel_equal_encoded {q : Pixel} {s : State} (g : s.Encoding) (hq : effectivePixel s.chan4 q = s.prev)
    (hroom : s.hasRoom (runPixelBytes s).length) :
    ∃ t, exec (.encPixel q) s = .next t ∧ Encoded s t s.prev (runPixelBytes s) (runAfter s.prev s) := by
  rw [← pixelBytes_equal s.prev s rfl, ← hq] at hroom ⊢
  exact exec_encPixel_encoded q s g hroom

/-- Settles O28: the pixel closes the run or leaves it open. -/
theorem equalPixelExtendsRun : Obligations.EqualPixelExtendsRun := by
  intro q s g hle hq
  refine ⟨fun hclose hroom => ?_, fun h62 hlast => ?_⟩
  · have hcloses := (runCloses_iff s hle).2 hclose
    have hbytes := runPixelBytes_closed s hle hcloses
    obtain ⟨t, ht, d⟩ := exec_encPixel_equal_encoded g hq (by rwa [hbytes])
    rw [hbytes, runAfter_closed hcloses] at d
    exact ⟨t, ht, d⟩
  · have hopen : ¬ runCloses s = true := fun h => ((runCloses_iff s hle).1 h).elim h62 hlast
    have hbytes := runPixelBytes_open s hopen
    obtain ⟨t, ht, d⟩ := exec_encPixel_equal_encoded g hq (by rw [hbytes]; exact s.outLen.isLt)
    rw [hbytes, runAfter_open rfl hopen] at d
    exact ⟨t, ht, d⟩

/-! ### Pixels that differ from PREV (R93, R95 to R99) -/

/-- R88, R93: a differing pixel is emitted as the flush of an open run and the bytes of the chunk selected. -/
theorem exec_encPixel_selected {q p : Pixel} {s : State} {bytes : List Byte} (g : s.Encoding)
    (hq : p = effectivePixel s.chan4 q) (hp : p ≠ s.prev) (hbytes : encodeChunk (selectChunk s.cache s.prev p) = bytes)
    (hroom : s.hasRoom ((flushBytes s.run).length + bytes.length)) :
    ∃ t, exec (.encPixel q) s = .next t ∧ Encoded s t p (flushBytes s.run ++ bytes) 0 := by
  subst hq hbytes
  rw [← List.length_append, ← differingBytes_eq] at hroom
  rw [← differingBytes_eq]
  exact ⟨_, exec_encPixel_differing q s g hp hroom, encodeDifferingPixel_encoded s _ g hroom⟩

/-- R96: the chunk of a cache miss with alpha unchanged and deltas that fit DIFF. -/
theorem selectChunk_diff {c : Cache} {prev p : Pixel} {dr dg db : Int} (hmiss : c.lookup (hash p) ≠ p)
    (ha : p.a = prev.a) (hr : dr = delta p.r prev.r) (hg : dg = delta p.g prev.g) (hb : db = delta p.b prev.b)
    (hdiff : -2 ≤ dr ∧ dr ≤ 1 ∧ -2 ≤ dg ∧ dg ≤ 1 ∧ -2 ≤ db ∧ db ≤ 1) : selectChunk c prev p = .diff dr dg db := by
  rw [selectChunk_colour c prev p hmiss ha, ← hr, ← hg, ← hb, colourChunk, if_pos ((diffFits_iff ..).2 hdiff)]

/-- R97, R99: where the deltas do not fit DIFF, they fit LUMA or the chunk is an RGB. -/
theorem selectChunk_luma_or_rgb {c : Cache} {prev p : Pixel} {dr dg db : Int} (hmiss : c.lookup (hash p) ≠ p)
    (ha : p.a = prev.a) (hr : dr = delta p.r prev.r) (hg : dg = delta p.g prev.g) (hb : db = delta p.b prev.b)
    (hdiff : ¬ (-2 ≤ dr ∧ dr ≤ 1 ∧ -2 ≤ dg ∧ dg ≤ 1 ∧ -2 ≤ db ∧ db ≤ 1)) :
    selectChunk c prev p =
      if -32 ≤ dg ∧ dg ≤ 31 ∧ -8 ≤ dr - dg ∧ dr - dg ≤ 7 ∧ -8 ≤ db - dg ∧ db - dg ≤ 7 then
        .luma dg (dr - dg) (db - dg)
      else .rgb p.r p.g p.b := by
  rw [selectChunk_colour c prev p hmiss ha, ← hr, ← hg, ← hb, colourChunk, if_neg (mt (diffFits_iff ..).1 hdiff)]
  simp only [lumaFits_iff]

/-- Settles O29. -/
theorem cachedPixelEmitsIndex : Obligations.CachedPixelEmitsIndex := by
  intro q p s g hq hp hhit hroom
  refine exec_encPixel_selected g hq hp ?_ hroom
  rw [selectChunk_index _ _ p hhit, encodeChunk_index]

/-- Settles O30. -/
theorem smallDeltaEmitsDiff : Obligations.SmallDeltaEmitsDiff := by
  intro q p s dr dg db g hq hp hmiss ha hr hg hb hdiff hroom
  refine exec_encPixel_selected g hq hp ?_ hroom
  rw [selectChunk_diff hmiss ha hr hg hb hdiff, encodeChunk_diff dr dg db hdiff]

/-- Settles O31. -/
theorem mediumDeltaEmitsLuma : Obligations.MediumDeltaEmitsLuma := by
  intro q p s dr dg db g hq hp hmiss ha hr hg hb hdiff hluma hroom
  refine exec_encPixel_selected g hq hp ?_ hroom
  rw [selectChunk_luma_or_rgb hmiss ha hr hg hb hdiff, if_pos hluma, encodeChunk_luma _ _ _ hluma]

/-- Settles O32. -/
theorem changedAlphaEmitsRgba : Obligations.ChangedAlphaEmitsRgba := by
  intro q p s g hq hp hmiss ha hroom
  refine exec_encPixel_selected g hq hp ?_ hroom
  rw [selectChunk_rgba _ _ p hmiss ha, encodeChunk]

/-- Settles O33. -/
theorem largeDeltaEmitsRgb : Obligations.LargeDeltaEmitsRgb := by
  intro q p s dr dg db g hq hp hmiss ha hr hg hb hdiff hluma hroom
  refine exec_encPixel_selected g hq hp ?_ hroom
  rw [selectChunk_luma_or_rgb hmiss ha hr hg hb hdiff, if_neg hluma, encodeChunk]

/-- Settles O34. -/
theorem everyPixelIsEncoded : Obligations.EveryPixelIsEncoded := by
  intro q s g hroom
  obtain ⟨t, ht, d⟩ := exec_encPixel_encoded q s g hroom
  exact ⟨t, _, ht, d⟩

/-- Settles O36: such a pixel differs from PREV, and its chunk is the INDEX of O29 or the RGBA of O32. -/
theorem alphaChangeIsIndexOrRgba : Obligations.AlphaChangeIsIndexOrRgba := by
  intro q p s g hq ha hroom
  have hp : p ≠ s.prev := fun h => ha (congrArg Pixel.a h)
  by_cases hhit : s.cache.lookup (hash p) = p
  · rw [if_pos hhit] at hroom ⊢
    obtain ⟨t, ht, d⟩ := cachedPixelEmitsIndex q p s g hq hp hhit hroom
    exact ⟨t, ht, d.response⟩
  · rw [if_neg hhit] at hroom ⊢
    obtain ⟨t, ht, d⟩ := changedAlphaEmitsRgba q p s g hq hp hhit ha hroom
    exact ⟨t, ht, d.response⟩

/-- Settles O38: the last pixel closes its run. -/
theorem lastPixelLeavesNoRun : Obligations.LastPixelLeavesNoRun := by
  intro q s g hlast hroom
  obtain ⟨t, ht, d⟩ := exec_encPixel_encoded q s g hroom
  refine ⟨t, ht, ?_, ?_, ?_⟩
  · rw [d.mode, if_pos hlast]
  · rw [d.run, runAfter_closed (runCloses_last s hlast)]
  · rw [d.count, hlast]
    rfl

end Sys2Proof.Machine
end

section
/-! PROOFS. The chunk selector (41_encoder.md): its order of guards (R89), the wrap of deltas (R90, R91), and how many bytes the
selected chunk makes one ENC_PIXEL emit (R100). -/
namespace Sys2Proof.Machine

/-! ### The selector's order (R89 to R91) -/

/-- Settles O37: DIFF and LUMA ask for an unchanged alpha, so testing the alpha before them selects the same. -/
theorem selectorFollowsPriorityOrder : Obligations.SelectorFollowsPriorityOrder := by
  intro c prev p dr dg db hr hg hb
  split
  · next hhit => exact selectChunk_index c prev p hhit
  · next hmiss =>
    by_cases ha : p.a = prev.a
    · simp only [ha, true_and, ne_eq, not_true_eq_false, if_false]
      split
      · next hdiff => exact selectChunk_diff hmiss ha hr hg hb hdiff
      · next hdiff => exact selectChunk_luma_or_rgb hmiss ha hr hg hb hdiff
    · rw [if_neg fun h => ha h.1, if_neg fun h => ha h.1, if_pos ha]
      exact selectChunk_rgba c prev p hmiss ha

/-- R10: the signed reading of a number is the number modulo 256. -/
theorem s8_emod (v : Int) : (s8 v - v) % 256 = 0 := by
  unfold s8
  split <;> omega

/-- R10, R91: a number that is no further than 248 from 0 is in [-8, 7] exactly if its signed reading is. -/
theorem s8_small_iff {v : Int} (hlo : -248 ≤ v) (hhi : v < 248) : (-8 ≤ s8 v ∧ s8 v ≤ 7) ↔ (-8 ≤ v ∧ v ≤ 7) := by
  unfold s8
  split <;> omega

/-- Settles O39: dr and db are at most 159 away from a dg that LUMA allows, so wrapping the difference brings none into [-8, 7]. -/
theorem deltasWrapSigned : Obligations.DeltasWrapSigned := by
  refine ⟨fun x y => ?_, fun dr dg db hrlo hrhi hblo hbhi => ?_⟩
  · obtain ⟨hlo, hhi⟩ := delta_range x y
    exact ⟨hlo, hhi, s8_emod _⟩
  · rw [lumaFits_iff]
    refine and_congr_right fun hglo => and_congr_right fun hghi => ?_
    have hr := s8_small_iff (v := dr - dg) (by omega) (by omega)
    have hb := s8_small_iff (v := db - dg) (by omega) (by omega)
    omega

/-! ### How many bytes (R100) -/

theorem flushBytes_length (run : BitVec 6) : (flushBytes run).length = if run = 0 then 0 else 1 := by
  unfold flushBytes
  split <;> rfl

/-- R89: a pixel that differs from PREV is no RUN. -/
theorem selectChunk_ne_run (c : Cache) (prev p : Pixel) (len : Nat) : selectChunk c prev p ≠ .run len := by
  rcases selectChunk_cases c prev p with ⟨-, h⟩ | h | ⟨-, _, _, _, -, -, -, ⟨-, h⟩ | ⟨-, h⟩ | h⟩ <;> rw [h] <;>
    exact Chunk.noConfusion

/-- R54, R98: the selected chunk has five bytes exactly if it is the RGBA of a cache miss with a changed alpha. -/
theorem selectChunk_length_eq_five (c : Cache) (prev p : Pixel) :
    (encodeChunk (selectChunk c prev p)).length = 5 ↔ c.lookup (hash p) ≠ p ∧ p.a ≠ prev.a := by
  constructor
  · intro hlen
    refine ⟨fun hhit => ?_, fun ha => ?_⟩
    · rw [selectChunk_index c prev p hhit] at hlen
      cases hlen
    · have hne := selectChunk_ne_rgba (c := c) ha
      cases hsel : selectChunk c prev p with
      | rgba r g b a => exact hne r g b a hsel
      | _ => rw [hsel] at hlen; cases hlen
  · rintro ⟨hmiss, ha⟩
    rw [selectChunk_rgba c prev p hmiss ha]
    rfl

/-- Settles O35: the run path emits at most one byte, the other one the flush byte of an open run and the selected chunk. -/
theorem emittedByteCount : Obligations.EmittedByteCount := by
  rintro q p s t r g rfl ht hr
  obtain ⟨hbytes, hlen⟩ := exec_encPixel_bytes g ht hr
  refine ⟨hlen, ?_, ?_, hbytes ▸ pixelBytes_length_le _ s, ?_⟩
  · intro hp
    rw [hbytes, pixelBytes_equal _ s hp]
    exact runPixelBytes_length s
  · intro hp
    rw [hbytes, pixelBytes_differing _ s hp, differingBytes_eq, List.length_append, flushBytes_length]
    cases hsel : selectChunk s.cache s.prev (effectivePixel s.chan4 q) with
    | run len => exact absurd hsel (selectChunk_ne_run _ _ _ len)
    | _ => rfl
  · rw [hbytes]
    by_cases hp : effectivePixel s.chan4 q = s.prev
    · have hle := runPixelBytes_length s
      rw [pixelBytes_equal _ s hp]
      exact ⟨fun h => by omega, fun h => absurd hp h.2.1⟩
    · have hle := encodeChunk_length_le (selectChunk s.cache s.prev (effectivePixel s.chan4 q))
      rw [pixelBytes_differing _ s hp, differingBytes_eq, List.length_append, flushBytes_length,
        ← selectChunk_length_eq_five]
      by_cases hrun : s.run = 0
      · rw [if_pos hrun]
        exact ⟨fun h => by omega, fun h => absurd hrun h.1⟩
      · rw [if_neg hrun]
        exact ⟨fun h => ⟨hrun, hp, by omega⟩, fun h => by omega⟩

end Sys2Proof.Machine
end

section
/-! PROOFS. Runs (41_encoder.md R92, 30_encoding.md R75): n pixels equal to PREV that end the image. The induction is over n, from any
length of the open run: with r pixels open and n to come, the chunks still to be emitted are `RUNS (r + n)`. -/
namespace Sys2Proof.Machine

/-! ### The chunks of `RUNS n` (R75) -/

/-- R75: a full run in front, or one run alone. -/
theorem runsChunks_add (len n : Nat) (hpos : 1 ≤ len) (h : len = 62 ∨ len ≤ 62 ∧ n = 0) :
    runsChunks (len + n) = .run len :: runsChunks n := by
  rcases h with rfl | ⟨hle, rfl⟩
  · have hdiv : (62 + n) / 62 = n / 62 + 1 := by omega
    have hmod : (62 + n) % 62 = n % 62 := by omega
    simp only [runsChunks, Config.maxRun, hdiv, hmod, List.replicate_succ, List.cons_append]
  · rcases Nat.lt_or_eq_of_le hle with hlt | rfl
    · have hdiv : len / 62 = 0 := Nat.div_eq_of_lt hlt
      have hmod : len % 62 = len := Nat.mod_eq_of_lt hlt
      have hne : len ≠ 0 := by omega
      simp [runsChunks, Config.maxRun, hdiv, hmod, hne]
    · rfl

/-! ### One pixel of the run (R92) -/

/-- The chunks of a pixel equal to PREV (R92). -/
def runPixelChunks (s : State) : List Chunk := if runCloses s then [.run (s.run + 1).toNat] else []

theorem runPixelBytes_eq_chunks (s : State) : runPixelBytes s = (runPixelChunks s).flatMap encodeChunk := by
  unfold runPixelBytes runPixelChunks
  split <;> rfl

theorem runPixelBytes_length_eq (s : State) : (runPixelBytes s).length = (runPixelChunks s).length := by
  unfold runPixelBytes runPixelChunks
  split <;> rfl

/-- An error-free encoding pass with n pixels still to come (R20), at most 61 pixels of a run open (R18) and none when no pixel is
left (R94). Unlike `State.InPass` it asks for no `State.Inv`. -/
structure State.Running (s : State) (n : Nat) : Prop where
  err : s.err = .none
  mode : s.mode = if n = 0 then .encDone else .enc
  count : s.count.toNat = n
  runLe : s.run.toNat ≤ 61
  runEnd : n = 0 → s.run = 0

theorem State.Running.encoding {s : State} {n : Nat} (h : s.Running (n + 1)) : s.Encoding := ⟨h.err, h.mode⟩

theorem State.Running.count_eq_one {s : State} {n : Nat} (h : s.Running (n + 1)) : s.count = 1 ↔ n = 0 := by
  rw [← BitVec.toNat_inj, h.count]
  simp

theorem State.Running.withPort {s : State} {n : Nat} (h : s.Running n) (ports : List PortInput) :
    State.Running { s with port := ports } n := ⟨h.err, h.mode, h.count, h.runLe, h.runEnd⟩

/-- R75, R92: of `RUNS (run + n + 1)`, a pixel equal to PREV emits what is full or ends the image, and the rest is still to come. -/
theorem State.Running.runsChunks_eq {s : State} {n : Nat} (h : s.Running (n + 1)) :
    runsChunks (s.run.toNat + (n + 1)) = runPixelChunks s ++ runsChunks ((runAfter s.prev s).toNat + n) := by
  have hle := h.runLe
  have hsucc : (s.run + 1).toNat = s.run.toNat + 1 := by bv_omega
  have hassoc : s.run.toNat + (n + 1) = s.run.toNat + 1 + n := by omega
  rw [hassoc]
  by_cases hcloses : runCloses s = true
  · have hlen : s.run.toNat + 1 = 62 ∨ s.run.toNat + 1 ≤ 62 ∧ n = 0 :=
      ((runCloses_iff s hle).1 hcloses).imp_right fun hlast => ⟨by omega, h.count_eq_one.1 hlast⟩
    rw [runsChunks_add _ n (Nat.le_add_left 1 _) hlen, runPixelChunks, if_pos hcloses, runAfter_closed hcloses, hsucc]
    simp
  · rw [runPixelChunks, if_neg hcloses, runAfter_open rfl hcloses, hsucc, List.nil_append]

/-- R18, R94: a pixel equal to PREV leaves a run of at most 61, and none after the image's last pixel. -/
theorem State.Running.next {s t : State} {bytes : List Byte} {n : Nat} (h : s.Running (n + 1))
    (d : Encoded s t s.prev bytes (runAfter s.prev s)) : t.Running n where
  err := d.err
  mode := by rw [d.mode]; simp only [h.count_eq_one]
  count := by
    have hcount := h.count
    rw [d.count, BitVec.toNat_sub_of_le (by bv_omega)]
    simp [hcount]
  runLe := by
    rw [d.run]
    by_cases hcloses : runCloses s = true
    · rw [runAfter_closed hcloses]
      decide
    · rw [runAfter_open rfl hcloses]
      exact run_succ_le_of_open s h.runLe hcloses
  runEnd := fun hn => by rw [d.run, runAfter_closed (runCloses_last s (h.count_eq_one.2 hn))]

/-! ### All pixels of the run -/

/-- R120: one pixel issued, then the others. -/
theorem encodePixels_cons_of_issue {q : Pixel} {qs : List Pixel} {s t e : State} {r : Response} {rest : List Byte}
    (ht : issue (encPixelCommand q) s = .next t) (hr : t.response = some r)
    (hrest : encodePixels qs t = .ok (rest, e)) : encodePixels (q :: qs) s = .ok (r.bytes ++ rest, e) := by
  simp only [encodePixels, ht, hr, hrest]

/-- R75, R92: the pixels of a run that ends the image emit `RUNS (run + n)`, whatever is open of it before them. -/
theorem encodePixels_running {n : Nat} {q : Pixel} {s : State} (h : s.Running n)
    (hq : effectivePixel s.chan4 q = s.prev) (hroom : s.hasRoom (runsChunks (s.run.toNat + n)).length) :
    ∃ t, encodePixels (List.replicate n q) s = .ok ((runsChunks (s.run.toNat + n)).flatMap encodeChunk, t) ∧
      t.mode = .encDone ∧ t.prev = s.prev := by
  induction n generalizing s with
  | zero =>
    refine ⟨s, ?_, h.mode, rfl⟩
    rw [h.runEnd rfl]
    rfl
  | succ n ih =>
    have hport := h.withPort []
    rw [h.runsChunks_eq, List.length_append, ← runPixelBytes_length_eq, State.hasRoom, ← Nat.add_assoc] at hroom
    obtain ⟨t, ht, d⟩ := exec_encPixel_equal_encoded hport.encoding hq (Nat.lt_of_le_of_lt (Nat.le_add_right ..) hroom)
    obtain ⟨e, he, hmode, hprev⟩ := ih (hport.next d) (by rw [d.chan4, d.prev]; exact hq)
      (by rw [State.hasRoom, d.outLen, d.run]; exact hroom)
    refine ⟨e, ?_, hmode, hprev.trans d.prev⟩
    rw [List.replicate_succ, encodePixels_cons_of_issue ((issue_encPixel q s).trans ht) d.response he, d.run,
      h.runsChunks_eq, List.flatMap_append, ← runPixelBytes_eq_chunks]
    rfl

/-- Settles O40: with no run open the chunks are `RUNS n`. -/
theorem equalPixelsEmitRuns : Obligations.EqualPixelsEmitRuns := by
  intro n q s hpos hn g hrun hcount hq hroom
  have hrunning : s.Running n :=
    { err := g.err
      mode := by rw [if_neg (Nat.ne_of_gt hpos)]; exact g.mode
      count := by rw [hcount, BitVec.toNat_ofNat, Nat.mod_eq_of_lt hn]
      runLe := by rw [hrun]; decide
      runEnd := fun _ => hrun }
  have hlen : s.run.toNat + n = n := by rw [hrun]; exact Nat.zero_add n
  have hruns := encodePixels_running (q := q) hrunning hq
  rw [hlen] at hruns
  exact hruns hroom

end Sys2Proof.Machine
end

section
/-! PROOFS. The decoder (42_decoder.md): DEC_START (R103), each chunk kind by its own rule (R105 to R110, R116), the repetition step
(R111), the last pixel (R113), and DEC_STEP on the bytes at POS (R104, R112). That a chunk which fits is decoded, and one that does
not is a FormatError, is `exec_chunk_next` and `exec_chunk_truncated`; here stands which pixel each rule's formula gives. -/
namespace Sys2Proof.Machine

/-! ### Starting a pass (R103) -/

/-- Settles O17: `clearPass` empties everything of the last pass, and LEN holds the number of the bytes, since they are below 2^64. -/
theorem decStartInitialises : Obligations.DecStartInitialises := by
  intro n bytes s hlen
  refine ⟨_, exec_decStart_next s n bytes hlen, fun i => ?_, startCount_prev .., startCount_run .., startCount_drun ..,
    startCount_pos .., ?_, fun a => ?_, fun a => ?_, startCount_outLen .., startCount_chan4 .., startCount_count ..,
    startCount_port .., startCount_mode .., startCount_err .., startCount_response_status ..⟩
  · rw [startCount_cache]
    exact Cache.lookup_clear i
  · rw [startCount_len]
    exact (BitVec.toNat_ofNat ..).trans (Nat.mod_eq_of_lt hlen)
  · rw [startCount_input]
    exact Memory.read_ofBytes bytes a
  · rw [startCount_out]
    rfl

/-! ### One rule per chunk kind (R105 to R110) -/

/-- R104, R112: a chunk of n bytes yields its pixel where it fits, and is a FormatError where it does not. -/
theorem exec_chunk_decodes (c : Chunk) (s : State) (g : s.Decoding) {n : Nat} {px : Pixel} {owed : BitVec 6}
    (hn : (encodeChunk c).length = n) (hpx : chunkPixel s c = px) (howed : chunkOwed s c = owed) :
    (s.pos.toNat + n ≤ s.len.toNat → ∃ t, exec c.toInstr s = .next t ∧ Decoded s t n px owed) ∧
    (s.len.toNat < s.pos.toNat + n → ∃ t, exec c.toInstr s = .next t ∧ Failed s t .format) := by
  subst hn hpx howed
  exact ⟨exec_chunk_next c s g, exec_chunk_truncated c s g⟩

/-- R63, R106: the deltas of a chunk are added modulo 256. -/
theorem addDeltas_eq_add (p : Pixel) (dr dg db : Int) :
    Pixel.addDeltas p dr dg db =
      ⟨p.r + BitVec.ofInt 8 dr, p.g + BitVec.ofInt 8 dg, p.b + BitVec.ofInt 8 db, p.a⟩ := by
  simp only [Pixel.addDeltas, addDelta_eq_add]

/-- Settles O41. -/
theorem indexDecodesSlot : Obligations.IndexDecodesSlot :=
  fun i s g => exec_chunk_decodes (.index i) s g rfl rfl g.drun

/-- Settles O42. -/
theorem diffDecodesDeltas : Obligations.DiffDecodesDeltas :=
  fun dr dg db s g => exec_chunk_decodes (.diff dr dg db) s g rfl (addDeltas_eq_add s.prev dr dg db) g.drun

/-- Settles O43: adding `dg + du` modulo 256 is adding dg and then du. -/
theorem lumaDecodesDeltas : Obligations.LumaDecodesDeltas := by
  intro dg du dv s g
  refine exec_chunk_decodes (.luma dg du dv) s g rfl ?_ g.drun
  rw [chunkPixel, addDeltas_eq_add]
  simp only [BitVec.ofInt_add, BitVec.add_assoc]

/-- Settles O44. -/
theorem runDecodesFirstPixel : Obligations.RunDecodesFirstPixel :=
  fun len s g _ _ => exec_chunk_decodes (.run len) s g rfl rfl rfl

/-- Settles O45. -/
theorem rgbDecodesChannels : Obligations.RgbDecodesChannels :=
  fun r gr b s g => exec_chunk_decodes (.rgb r gr b) s g rfl rfl g.drun

/-- Settles O46. -/
theorem rgbaDecodesChannels : Obligations.RgbaDecodesChannels :=
  fun r gr b a s g => exec_chunk_decodes (.rgba r gr b a) s g rfl rfl g.drun

/-- Settles O54: the selected chunk yields the pixel from the same PREV and CACHE, and a RUN yields PREV. -/
theorem selectedChunkReconstructsPixel : Obligations.SelectedChunkReconstructsPixel := by
  intro p s c g hc hfits
  have hpx : chunkPixel s c = p := by
    rcases hc with ⟨-, rfl⟩ | ⟨rfl, len, rfl, -, -⟩
    · exact chunkPixel_selectChunk s p
    · rfl
  obtain ⟨t, ht, d⟩ := exec_chunk_next c s g hfits
  exact ⟨t, ht, _, hpx ▸ d⟩

/-! ### Repetitions and the last pixel (R111, R113) -/

/-- Settles O47. -/
theorem owedRepetitionReturnsPrev : Obligations.OwedRepetitionReturnsPrev := by
  intro s he hm hd
  rw [exec_decStep, decodeGuard_owed _ s he hm hd]
  exact repeatPixel_next s he hm

/-- Settles O49: a step without error has decoded a pixel, whatever it came from, and in DEC_DONE the mode check fails. -/
theorem lastPixelEndsDecode : Obligations.LastPixelEndsDecode := by
  intro s t _ _ hcount ht herr
  rcases exec_decode_cases (.inl rfl) ht with ⟨e, he, f⟩ | ⟨n, px, owed, d⟩
  · exact absurd (f.err.symm.trans herr) he
  · have hmode : t.mode = .decDone := by rw [d.mode, if_pos hcount]
    refine ⟨hmode, by rw [d.drun, if_pos hcount], by rw [d.count, hcount]; rfl, _, ?_, failed_raise t .command⟩
    exact decodeGuard_wrongMode _ t herr (by rw [hmode]; decide)

/-! ### The chunk at POS (R104, R112) -/

theorem decodeGuard_congr {f g : State → Result} {s : State} (h : f s = g s) : decodeGuard f s = decodeGuard g s := by
  unfold decodeGuard
  rw [h]

/-- R104: the chunk that the bytes at POS decode to is fetched. -/
theorem fetchChunk_of_readBytes (s : State) (bytes : List Byte) (c : Chunk)
    (hread : s.input.readBytes s.pos.toNat bytes.length = some bytes) (hc : decodeChunk bytes = .ok (c, []))
    (hfits : s.pos.toNat + bytes.length ≤ s.len.toNat) : fetchChunk s = .ok c := by
  cases bytes with
  | nil => cases hc
  | cons b0 tail =>
    have hlen : (b0 :: tail).length = chunkLength b0 := by
      rw [← encodeChunk_length_of_decode b0 tail c [] hc, ← encodeChunk_of_decodeChunk _ c [] hc, List.append_nil]
    have hb0 : s.input.read s.pos.toNat = some b0 :=
      ((Memory.readBytes_eq_some ..).1 hread).2 0 (Nat.succ_pos _)
    rw [hlen] at hread hfits
    obtain ⟨c', hc', hfetch⟩ := fetchChunk_ok s b0 (b0 :: tail) hb0 hfits hread
    rw [hc] at hc'
    cases hc'
    exact hfetch

/-- Settles O14: behind the same guards, DEC_STEP performs the chunk it fetches. -/
theorem decStepPerformsChunkAtPos : Obligations.DecStepPerformsChunkAtPos := by
  intro s cmd rest bytes c hport hcmd hread hc hfits
  rw [stepPerformsDecodedCommand s cmd rest .decStep hport (decodeCommand_decStep cmd hcmd), exec_decStep, exec_toInstr]
  have hfetch := fetchChunk_of_readBytes { s with port := rest } bytes c hread hc hfits
  refine decodeGuard_congr ?_
  rw [decodeAtPos, hfetch]

/-- R112: a chunk that runs past LEN, with its first byte or with a later one, is a FormatError. -/
theorem exec_decStep_truncated (s : State) (g : s.Decoding) (h : s.len.toNat < s.pos.toNat + 1 ∨
    ∃ b0, s.input.read s.pos.toNat = some b0 ∧ s.len.toNat < s.pos.toNat + chunkLength b0) :
    exec .decStep s = .next (s.raise .format) := by
  have hfetch : fetchChunk s = .error .truncated := by
    unfold fetchChunk
    by_cases hfirst : s.len.toNat < s.pos.toNat + 1
    · rw [if_pos hfirst]
    · obtain ⟨b0, hb0, hshort⟩ := h.resolve_left hfirst
      rw [if_neg hfirst, hb0]
      exact if_pos hshort
  rw [exec_decStep, decodeGuard_decoding _ _ g, decodeAtPos, hfetch]

/-- Settles O23, with the length of a chunk by ranges of its first byte. -/
theorem truncatedChunkRaisesFormatError : Obligations.TruncatedChunkRaisesFormatError :=
  fun s g =>
    ⟨fun h => ⟨_, exec_decStep_truncated s g (.inl h), failed_raise s _⟩,
      fun b0 hb0 h => ⟨_, exec_decStep_truncated s g (.inr ⟨b0, hb0, chunkLength_eq b0 ▸ h⟩), failed_raise s _⟩⟩

/-- Settles O48: IN has no hole below LEN, so the bytes from POS on are enough for the chunk b0 begins, and it decodes. -/
theorem decStepProducesPixel : Obligations.DecStepProducesPixel := by
  intro s b0 hinv g hb0 hfits
  obtain ⟨tail, hunread⟩ : ∃ tail, s.unread = b0 :: tail := by
    rw [← List.head?_eq_some_iff, List.head?_eq_getElem?, ← hinv.read_unread]
    exact hb0
  have hlen : chunkLength b0 ≤ (b0 :: tail).length := by
    rw [← hunread]
    have := hinv.unread_length
    omega
  obtain ⟨c, hc⟩ := decodeChunk_of_length b0 tail hlen
  obtain ⟨t, ht, d, -⟩ := exec_decStep_of_unread s c _ hinv g (decodeChunk_wf _ _ _ hc)
    (hunread.trans (encodeChunk_of_decodeChunk _ _ _ hc).symm)
  exact ⟨t, _, _, ht, encodeChunk_length_of_decode b0 tail c _ hc ▸ d⟩

end Sys2Proof.Machine
end

section
/-! PROOFS. What DEC_STEP reads of IN (42_decoder.md R112, R114): the fetch reads the chunk at POS and nothing else, and what follows
it reads no byte, so with another IN that agrees there the answer is the same but for IN. -/
namespace Sys2Proof.Machine

theorem Memory.readBytes_congr {m m' : Memory} {a n : Nat} (h : ∀ k < n, m.read (a + k) = m'.read (a + k)) :
    m.readBytes a n = m'.readBytes a n := by
  refine Option.ext fun bytes => ?_
  rw [Memory.readBytes_eq_some, Memory.readBytes_eq_some]
  exact and_congr_right fun _ => forall₂_congr fun k hk => by rw [h k hk]

/-- R112, R114: the fetch reads no byte at or beyond LEN and none beyond the chunk at POS. -/
theorem fetchChunk_withInput {s : State} {other : Memory}
    (hagree : ∀ a, s.pos.toNat ≤ a → a < s.len.toNat →
      (∀ b0, s.input.read s.pos.toNat = some b0 → a < s.pos.toNat + chunkLength b0) →
      other.read a = s.input.read a) :
    fetchChunk { s with input := other } = fetchChunk s := by
  unfold fetchChunk
  dsimp only
  by_cases hfirst : s.len.toNat < s.pos.toNat + 1
  · rw [if_pos hfirst, if_pos hfirst]
  · have hpos : other.read s.pos.toNat = s.input.read s.pos.toNat :=
      hagree _ (Nat.le_refl _) (by omega) fun b0 _ => by have := chunkLength_pos b0; omega
    rw [if_neg hfirst, if_neg hfirst, hpos]
    cases hb0 : s.input.read s.pos.toNat with
    | none => rfl
    | some b0 =>
      dsimp only
      by_cases hshort : s.len.toNat < s.pos.toNat + chunkLength b0
      · rw [if_pos hshort, if_pos hshort]
      · have hchunk : other.readBytes s.pos.toNat (chunkLength b0) = s.input.readBytes s.pos.toNat (chunkLength b0) :=
          Memory.readBytes_congr fun k hk => hagree _ (by omega) (by omega) fun b hb => by
            cases hb0.symm.trans hb
            omega
        rw [if_neg hshort, if_neg hshort, hchunk]

/-- R105 to R110: a chunk, once fetched, is performed without reading IN. -/
theorem performChunk_withInput {c : Chunk} {s t : State} (other : Memory) (h : performChunk c s = .next t) :
    performChunk c { s with input := other } = .next { t with input := other } := by
  have hpx : chunkPixel { s with input := other } c = chunkPixel s c := by cases c <;> rfl
  have howed : chunkOwed { s with input := other } c = chunkOwed s c := by cases c <;> rfl
  rw [performChunk_eq] at h ⊢
  rw [hpx, howed]
  unfold consumeChunk at h ⊢
  split at h
  · next hshort =>
    cases h
    exact if_pos hshort
  · next hfits =>
    cases h
    exact if_neg hfits

theorem decodeAtPos_withInput {s t : State} {other : Memory}
    (hfetch : fetchChunk { s with input := other } = fetchChunk s) (h : decodeAtPos s = .next t) :
    decodeAtPos { s with input := other } = .next { t with input := other } := by
  unfold decodeAtPos at h ⊢
  rw [hfetch]
  cases hs : fetchChunk s with
  | ok c =>
    rw [hs] at h
    exact performChunk_withInput other h
  | error e =>
    rw [hs] at h
    cases e with
    | truncated => cases h; rfl
    | unmapped k => cases h

/-- Settles O24: the guards and the repetition step read no byte of IN, and the fetch reads the chunk at POS only. -/
theorem decStepReadsOnlyItsChunk : Obligations.DecStepReadsOnlyItsChunk := by
  intro s other hagree t ht
  rw [exec_decStep] at ht ⊢
  rcases decodeGuard_cases decodeAtPos s with ⟨he, hs⟩ | ⟨he, hm, hs⟩ | ⟨he, hm, hd, hs⟩ | ⟨g, hs⟩ <;> rw [hs] at ht
  · cases ht
    exact decodeGuard_held _ { s with input := other } he
  · cases ht
    exact decodeGuard_wrongMode _ { s with input := other } he hm
  · cases ht
    exact decodeGuard_owed _ { s with input := other } he hm hd
  · rw [decodeGuard_decoding _ { s with input := other } ⟨g.err, g.mode, g.drun⟩]
    exact decodeAtPos_withInput (fetchChunk_withInput hagree) ht

end Sys2Proof.Machine
end

section
/-! PROOFS. The header codec at the boundary (43_stream_framing.md R117, R118, R121): what `parseHeader` accepts is exactly a header
followed by any bytes. -/
namespace Sys2Proof.Machine

/-! ### 32-bit values, big-endian -/

theorem ofBe32_toNat (b0 b1 b2 b3 : Byte) :
    (ofBe32 b0 b1 b2 b3).toNat = b0.toNat * 2 ^ 24 + b1.toNat * 2 ^ 16 + b2.toNat * 2 ^ 8 + b3.toNat := by
  simp only [ofBe32, toNat_append']
  omega

theorem be32_ofBe32 (b0 b1 b2 b3 : Byte) : be32 (ofBe32 b0 b1 b2 b3) = [b0, b1, b2, b3] := by
  have h0 := b0.isLt
  have h1 := b1.isLt
  have h2 := b2.isLt
  have h3 := b3.isLt
  simp only [be32, List.cons.injEq, and_true]
  refine ⟨byte_ext ?_, byte_ext ?_, byte_ext ?_, byte_ext ?_⟩ <;>
    rw [toNat_field, ofBe32_toNat] <;> omega

/-- The bytes of a 32-bit value, put together again. -/
theorem ofBe32_extract (v : BitVec 32) :
    ofBe32 (v.extractLsb' 24 8) (v.extractLsb' 16 8) (v.extractLsb' 8 8) (v.extractLsb' 0 8) = v := by
  have hv := v.isLt
  apply BitVec.eq_of_toNat_eq
  rw [ofBe32_toNat, toNat_field, toNat_field, toNat_field, toNat_field]
  omega

/-- R120: the bytes of a 32-bit value by number. -/
theorem be32_eq_ofNat (v : BitVec 32) :
    be32 v = [BitVec.ofNat 8 (v.toNat / 2 ^ 24), BitVec.ofNat 8 (v.toNat / 2 ^ 16), BitVec.ofNat 8 (v.toNat / 2 ^ 8),
      BitVec.ofNat 8 v.toNat] := by
  have hfield : ∀ lo, v.extractLsb' lo 8 = BitVec.ofNat 8 (v.toNat / 2 ^ lo) := fun lo =>
    byte_ext ((toNat_field v lo 8).trans (BitVec.toNat_ofNat ..).symm)
  simp only [be32, hfield, Nat.pow_zero, Nat.div_one]

/-- Only 0 has four zero bytes. -/
theorem eq_zero_of_be32 {v : BitVec 32} (h : be32 v = [0, 0, 0, 0]) : v = 0 := by
  simp only [be32, List.cons.injEq, and_true] at h
  obtain ⟨h0, h1, h2, h3⟩ := h
  rw [← ofBe32_extract v, h0, h1, h2, h3]
  rfl

/-! ### The channel and colorspace bytes -/

theorem Channels.ofByte_toByte (c : Channels) : Channels.ofByte c.toByte = some c := by
  cases c <;> rfl

theorem Channels.toByte_of_ofByte {b : Byte} {c : Channels} (h : Channels.ofByte b = some c) : c.toByte = b := by
  unfold Channels.ofByte at h
  split at h
  · next h3 => cases h; exact h3.symm
  · split at h
    · next h4 => cases h; exact h4.symm
    · cases h

/-- The channel bytes a header can carry (R117). -/
theorem channels_byte (c : Channels) : c.toByte = 3#8 ∨ c.toByte = 4#8 := by
  cases c with
  | three => exact .inl rfl
  | four => exact .inr rfl

/-- The colorspace bytes a header can carry (R117). -/
theorem colorspace_byte (c : BitVec 1) : c.setWidth 8 = 0#8 ∨ c.setWidth 8 = 1#8 := by
  revert c
  decide

/-- R121: a colorspace byte that passes its check is one bit. -/
theorem colorspace_of_checked {b : Byte} (h : ¬ (b ≠ 0#8 ∧ b ≠ 1#8)) : (b.setWidth 1).setWidth 8 = b := by
  rcases Decidable.not_and_iff_not_or_not.1 h with hb | hb <;> rw [Decidable.of_not_not hb] <;> rfl

/-! ### The header -/

theorem header_length (im : Image) : (header im).length = 14 := rfl

/-- R117: MAGIC and the two dimensions stand at the offsets 0, 4 and 8, channels and colorspace at 12 and 13. -/
theorem header_fields (im : Image) (rest : List Byte) :
    (header im ++ rest).take 4 = be32 Config.magic ∧
    (header im ++ rest).take 8 = be32 Config.magic ++ be32 im.width ∧
    (header im ++ rest).take 12 = be32 Config.magic ++ be32 im.width ++ be32 im.height ∧
    (header im ++ rest)[12]? = some im.channels.toByte ∧ (header im ++ rest)[13]? = some (im.colorspace.setWidth 8) :=
  ⟨rfl, rfl, rfl, rfl, rfl⟩

/-- R121: a header with positive dimensions parses to its fields, whatever stands after it. -/
theorem parseHeader_header (im : Image) (rest : List Byte) (hw : im.width ≠ 0) (hh : im.height ≠ 0) :
    parseHeader (header im ++ rest) = some ({ im with pixels := [] }, rest) := by
  have hcs : ¬ (im.colorspace.setWidth 8 ≠ 0#8 ∧ im.colorspace.setWidth 8 ≠ 1#8) := fun h =>
    (colorspace_byte im.colorspace).elim h.1 h.2
  have hback : (im.colorspace.setWidth 8).setWidth 1 = im.colorspace := by simp
  simp only [header, be32, List.cons_append, List.nil_append, parseHeader, ofBe32_extract, Channels.ofByte_toByte,
    ne_eq, not_true_eq_false, if_false, hw, hh, or_self, hback]
  exact if_neg hcs

/-- R121: what parses is a header with positive dimensions, and the bytes after it. -/
theorem header_of_parseHeader {bytes rest : List Byte} {im : Image} (h : parseHeader bytes = some (im, rest)) :
    bytes = header im ++ rest ∧ im.width ≠ 0 ∧ im.height ≠ 0 := by
  unfold parseHeader at h
  repeat' split at h
  all_goals cases h
  next hmagic _ _ hch hcs hdim =>
    refine ⟨?_, fun hw => hdim (.inl hw), fun hh => hdim (.inr hh)⟩
    simp only [header, ← Decidable.of_not_not hmagic, be32_ofBe32, Channels.toByte_of_ofByte hch,
      colorspace_of_checked hcs, List.cons_append, List.nil_append]

/-- Settles O59: had the header parsed, the stream would begin with a header, which fails none of the checks. -/
theorem hostDecodeRejectsBadHeader : Obligations.HostDecodeRejectsBadHeader := by
  intro bytes s hbad
  cases hparse : parseHeader bytes with
  | none => rw [hostDecode, hparse]
  | some parsed =>
    obtain ⟨im, rest⟩ := parsed
    obtain ⟨rfl, hw, hh⟩ := header_of_parseHeader hparse
    obtain ⟨h4, h8, h12, hch, hcs⟩ := header_fields im rest
    rw [h4, h8, h12, hch, hcs] at hbad
    exfalso
    rcases hbad with hlen | hmagic | ⟨h3, h4⟩ | ⟨h0, h1⟩ | hzero | hzero
    · rw [List.length_append, header_length] at hlen
      omega
    · exact hmagic rfl
    · exact (channels_byte im.channels).elim (fun h => h3 (congrArg some h)) fun h => h4 (congrArg some h)
    · exact (colorspace_byte im.colorspace).elim (fun h => h0 (congrArg some h)) fun h => h1 (congrArg some h)
    · exact hw (eq_zero_of_be32 (List.append_cancel_left hzero))
    · exact hh (eq_zero_of_be32 (List.append_cancel_left hzero))

end Sys2Proof.Machine
end

section
/-! PROOFS. The host's encode (43_stream_framing.md R117 to R120): an invalid Image never reaches the engine, a valid one starts a
pass of its pixels, and the pass ends in ENC_DONE with the body in OUT or stops because OUT is full. -/
namespace Sys2Proof.Machine

/-! ### Valid Images (R120) -/

/-- What R120 checks of an Image before the engine is reached. -/
structure Image.Valid (im : Image) : Prop where
  width : im.width ≠ 0
  height : im.height ≠ 0
  pixels : im.pixels.length = im.area

theorem Image.Valid.area_pos {im : Image} (h : im.Valid) : 0 < im.area := by
  have hw := h.width
  have hh := h.height
  exact Nat.mul_pos (by bv_omega) (by bv_omega)

/-- R8: COUNT can hold the area of every Image. -/
theorem Image.area_lt (im : Image) : im.area < 2 ^ 64 :=
  Nat.lt_of_lt_of_eq (Nat.mul_lt_mul'' im.width.isLt im.height.isLt) (by decide)

/-- Settles O57. -/
theorem hostEncodeRejectsInvalidImage : Obligations.HostEncodeRejectsInvalidImage := by
  intro im s hinvalid
  unfold hostEncode
  by_cases hdim : im.width = 0 ∨ im.height = 0
  · rw [if_pos hdim]
  · have hpixels : im.pixels.length ≠ im.area := (or_assoc.2 hinvalid).resolve_left hdim
    rw [if_neg hdim, if_pos hpixels]

theorem Image.valid_of_hostEncode {im : Image} {s u : State} {bytes : List Byte}
    (h : hostEncode im s = .ok (bytes, u)) : im.Valid := by
  have hinvalid := fun hi => (hostEncodeRejectsInvalidImage im s hi).symm.trans h
  exact
    { width := fun hw => nomatch hinvalid (.inl hw)
      height := fun hh => nomatch hinvalid (.inr (.inl hh))
      pixels := Decidable.byContradiction fun hp => nomatch hinvalid (.inr (.inr hp)) }

/-! ### The encode pass -/

/-- R26, R36: the channel mode and OUTLEN that ENC_START leaves. -/
theorem issue_encStart_next {c : Bool} {n : Count} {s t : State} (h : issue (encStartCommand c n) s = .next t) :
    t.chan4 = c ∧ t.outLen = 0 := by
  rw [issue_encStart] at h
  cases h
  exact ⟨startCount_chan4 .., startCount_outLen ..⟩

/-- R120: a valid Image is encoded by its pixels' loop in the pass that ENC_START starts, framed by header and end marker. -/
theorem Image.Valid.hostEncode_eq {im : Image} (h : im.Valid) (s : State) :
    ∃ t, t.Started .enc .encDone im.pixels.length ∧ t.chan4 = decide (im.channels = .four) ∧ t.outLen = 0 ∧
      hostEncode im s =
        (encodePixels im.pixels t).map fun body => (header im ++ body.1 ++ endMarker, body.2) := by
  obtain ⟨t, ht, hstart⟩ := issue_encStart_started s (decide (im.channels = .four)) im.area h.area_pos im.area_lt
  obtain ⟨hchan, houtLen⟩ := issue_encStart_next ht
  refine ⟨t, h.pixels ▸ hstart, hchan, houtLen, ?_⟩
  unfold hostEncode
  rw [if_neg (not_or.2 ⟨h.width, h.height⟩), if_neg fun hne => hne h.pixels, ht]
  dsimp only
  cases encodePixels im.pixels t <;> rfl

/-- A successful encode: the pass it was, and the stream as header, body and end marker (R117). -/
theorem hostEncode_ok {im : Image} {s u : State} {bytes : List Byte} (h : hostEncode im s = .ok (bytes, u)) :
    ∃ t body, t.Started .enc .encDone im.pixels.length ∧ t.chan4 = decide (im.channels = .four) ∧
      encodePixels im.pixels t = .ok (body, u) ∧ bytes = header im ++ body ++ endMarker := by
  obtain ⟨t, hstart, hchan, -, heq⟩ := (Image.valid_of_hostEncode h).hostEncode_eq s
  rw [heq] at h
  cases hloop : encodePixels im.pixels t with
  | error e => rw [hloop] at h; cases h
  | ok answer =>
    rw [hloop] at h
    cases h
    exact ⟨t, answer.1, hstart, hchan, hloop, rfl⟩

/-- R88, R101: the loop over the pass's pixels ends the pass. -/
theorem State.InPass.encodePixels_ends {qs : List Pixel} {s e : State} {bytes : List Byte}
    (hs : s.InPass .enc .encDone qs.length) (h : encodePixels qs s = .ok (bytes, e)) : e.InPass .enc .encDone 0 := by
  induction qs generalizing s bytes with
  | nil => cases h; exact hs
  | cons q qs ih =>
    obtain ⟨t, rest, -, hrest, -, ht, -⟩ := hs.encodePixels_cons h
    exact ih ht hrest

/-- Settles O58: the header's bytes by number, and OUT, empty at ENC_START, holds what the loop's responses held. -/
theorem streamLayout : Obligations.StreamLayout := by
  intro im s u bytes h
  obtain ⟨t, body, hstart, -, hloop, rfl⟩ := hostEncode_ok h
  have hend := hstart.pass.encodePixels_ends hloop
  have hout : u.out.values = body := by
    rw [encodePixels_appends hstart.pass.inv hloop, hstart.out]
    rfl
  refine ⟨body, rfl, header_length im, rfl, ?_, hend.mode, hend.err, ?_, fun k => ?_⟩
  · have hch : im.channels.toByte = if im.channels = .four then 4 else 3 := by cases im.channels <;> rfl
    have hdrop : (header im).drop 4 =
        be32 im.width ++ be32 im.height ++ [im.channels.toByte, im.colorspace.setWidth 8] := rfl
    rw [hdrop, be32_eq_ofNat, be32_eq_ofNat, hch, ← BitVec.ofNat_toNat]
    rfl
  · rw [← hout, (Memory.eq_ofBytes _ _ hend.inv.outDomain).2]
  · rw [← hout, Memory.read_eq_values _ _ hend.inv.outDomain]

/-! ### How many bytes a pass emits -/

/-- R92, R93, R100: with the flush byte of an open run counted where the run is opened, a pixel emits at most 5 bytes. -/
theorem pixelBytes_flush_length_le (p : Pixel) (s : State) :
    (pixelBytes p s).length + (flushBytes (runAfter p s)).length ≤ (flushBytes s.run).length + 5 := by
  by_cases hp : p = s.prev
  · have hbytes := runPixelBytes_length s
    have hflush := flushBytes_length_le (runAfter p s)
    rw [pixelBytes_equal p s hp]
    omega
  · have hchunk := encodeChunk_length_le (selectChunk s.cache s.prev p)
    have hflush : flushBytes 0 = [] := rfl
    rw [pixelBytes_differing p s hp, differingBytes_eq, runAfter_differing hp, hflush, List.length_append,
      List.length_nil]
    omega

/-- R120: the loop stops with the engine. -/
theorem encodePixels_cons_of_fault {q : Pixel} {qs : List Pixel} {s : State} {f : Fault}
    (h : issue (encPixelCommand q) s = .fault f) : encodePixels (q :: qs) s = .error .engineStopped := by
  simp only [encodePixels, h]

/-- R120: a stop at a later pixel is the loop's stop. -/
theorem encodePixels_cons_of_error {q : Pixel} {qs : List Pixel} {s t : State} {r : Response} {e : HostStop}
    (ht : issue (encPixelCommand q) s = .next t) (hr : t.response = some r) (hrest : encodePixels qs t = .error e) :
    encodePixels (q :: qs) s = .error e := by
  simp only [encodePixels, ht, hr, hrest]

/-- R101: the pixels of a pass are encoded, or the engine stops for want of room in OUT (R33), which 5 bytes a pixel must fill. -/
theorem State.InPass.encodePixels_ok_or_full {qs : List Pixel} {s : State} (hs : s.InPass .enc .encDone qs.length) :
    (∃ bytes e, encodePixels qs s = .ok (bytes, e)) ∨
      (encodePixels qs s = .error .engineStopped ∧
        2 ^ 64 ≤ s.outLen.toNat + (flushBytes s.run).length + 5 * qs.length) := by
  induction qs generalizing s with
  | nil => exact .inl ⟨[], s, rfl⟩
  | cons q qs ih =>
    have hle := pixelBytes_flush_length_le (effectivePixel s.chan4 q) s
    have hissue := hs.issue_encPixel q
    rw [List.length_cons]
    by_cases hroom : s.hasRoom (pixelBytes (effectivePixel s.chan4 q) s).length
    · obtain ⟨t, ht, d⟩ := exec_encPixel_encoded q s hs.encoding hroom
      have hpass := hs.next (exec_encPixel_keeps_inv hs.inv ht) d.err d.port d.count d.mode
      rcases ih hpass with ⟨rest, e, hrest⟩ | ⟨hstop, hfull⟩
      · exact .inl ⟨_, e, encodePixels_cons_of_issue (hissue.trans ht) d.response hrest⟩
      · refine .inr ⟨encodePixels_cons_of_error (hissue.trans ht) d.response hstop, ?_⟩
        rw [d.outLen, d.run] at hfull
        omega
    · refine .inr ⟨encodePixels_cons_of_fault (hissue.trans (exec_encPixel_full q s hs.encoding hroom)), ?_⟩
      rw [State.hasRoom] at hroom
      omega

/-- R120: a valid Image is encoded, or OUT is too small for 5 bytes a pixel (log entry 4). -/
theorem Image.Valid.hostEncode_ok_or_full {im : Image} (h : im.Valid) (s : State) :
    (∃ bytes u, hostEncode im s = .ok (bytes, u)) ∨
      (hostEncode im s = .error .engineStopped ∧ 2 ^ 64 ≤ 5 * im.area) := by
  obtain ⟨t, hstart, -, houtLen, heq⟩ := h.hostEncode_eq s
  rw [heq]
  rcases hstart.pass.encodePixels_ok_or_full with ⟨body, u, hloop⟩ | ⟨hstop, hfull⟩
  · exact .inl ⟨header im ++ body ++ endMarker, u, by rw [hloop]; rfl⟩
  · refine .inr ⟨by rw [hstop]; rfl, ?_⟩
    rw [houtLen, hstart.run, h.pixels] at hfull
    simpa [flushBytes] using hfull

end Sys2Proof.Machine
end

section
/-! PROOFS. The round trip (43_stream_framing.md R122): the decoder, handed the stream and the end marker, stays in lockstep with
the encoder, so that its loop returns the encoder's pixels under the channel mode (R87). -/
namespace Sys2Proof.Machine

/-! ### STATUS as the host reads it (R27) -/

@[simp] theorem statusErr_statusByte (m : Mode) (e : Err) : statusErr (statusByte m e) = e.code := by
  cases m <;> cases e <;> rfl

@[simp] theorem statusMode_statusByte (m : Mode) (e : Err) : statusMode (statusByte m e) = m.code := by
  cases m <;> cases e <;> rfl

/-! ### The decode loop (R121) -/

/-- R121: the loop ends with the pixel whose STATUS shows DEC_DONE. -/
theorem decodePixels_of_last {s t : State} {n : Nat} {px : Pixel} {owed : BitVec 6} (fuel : Nat)
    (h : issue decStepCommand s = .next t) (d : Decoded s t n px owed) (hmode : t.mode = .decDone) :
    decodePixels (fuel + 1) s = .ok ([px], t) := by
  simp [decodePixels, h, d.response, hmode, Err.code]

/-- R121: another pixel, and the loop goes on. -/
theorem decodePixels_of_more {s t u : State} {n : Nat} {px : Pixel} {owed : BitVec 6} {fuel : Nat} {pxs : List Pixel}
    (h : issue decStepCommand s = .next t) (d : Decoded s t n px owed) (hmode : t.mode = .dec)
    (hrest : decodePixels fuel t = .ok (pxs, u)) : decodePixels (fuel + 1) s = .ok (px :: pxs, u) := by
  simp [decodePixels, h, d.response, hmode, hrest, Err.code, Mode.code]

/-- R26: no ENC_PIXEL changes the channel mode. -/
theorem exec_encPixel_chan4 {q : Pixel} {s t : State} (h : exec (.encPixel q) s = .next t) : t.chan4 = s.chan4 := by
  rcases exec_encPixel_next_cases h with ⟨_, -, f⟩ | ⟨_, _, _, -, d⟩
  · exact f.chan4
  · exact d.chan4

/-- R116, R122: in lockstep with the encoder the decode loop returns the pixels that are encoded. -/
theorem InLockstep.decodePixels {q : Pixel} {qs : List Pixel} {bytes trail : List Byte} {s d e : State}
    (h : InLockstep (qs.length + 1) (bytes ++ trail) s d) (he : encodePixels (q :: qs) s = .ok (bytes, e)) :
    ∃ u, decodePixels (qs.length + 1) d = .ok ((q :: qs).map (effectivePixel s.chan4), u) := by
  induction qs generalizing q bytes s d with
  | nil =>
    obtain ⟨t, u, rest, k, owed, -, hu, -, hdec, hnext⟩ := h.step he
    exact ⟨u, decodePixels_of_last 0 hu hdec hnext.dec.mode⟩
  | cons q' qs ih =>
    obtain ⟨t, u, rest, k, owed, ht, hu, hrest, hdec, hnext⟩ := h.step he
    obtain ⟨u', hu'⟩ := ih hnext hrest
    rw [issue_encPixel] at ht
    rw [exec_encPixel_chan4 ht] at hu'
    exact ⟨u', decodePixels_of_more hu hdec hnext.dec.mode_busy hu'⟩

/-! ### Decode of encode -/

/-- R121: a stream with a valid Image's header is decoded by the loop, in the pass that DEC_START starts on the bytes after it. -/
theorem Image.Valid.hostDecode_eq {im : Image} (h : im.Valid) (rest : List Byte) (hlen : rest.length < 2 ^ 64)
    (s : State) : ∃ d, d.Started .dec .decDone im.pixels.length ∧ d.unread = rest ∧
      hostDecode (header im ++ rest) s =
        (decodePixels im.pixels.length d).map fun answer => ({ im with pixels := answer.1 }, answer.2) := by
  obtain ⟨d, hd, hstart, hunread⟩ := issue_decStart_started s rest im.area h.area_pos im.area_lt hlen
  refine ⟨d, h.pixels ▸ hstart, hunread, ?_⟩
  have hbody : hostDecode (header im ++ rest) s = hostDecodeBody { im with pixels := [] } rest s := by
    rw [hostDecode, parseHeader_header im rest h.width h.height]
  have harea : Image.area { im with pixels := [] } = im.area := rfl
  rw [hbody, hostDecodeBody, harea, hd, h.pixels]
  dsimp only
  cases decodePixels im.area d <;> rfl

/-- R122: decoding the stream of a successful encode, from any engine state, gives the Image back under its channel mode. -/
theorem hostDecode_of_hostEncode {im : Image} {s u : State} {bytes : List Byte} (h : hostEncode im s = .ok (bytes, u))
    (hlen : (bytes.drop 14).length < 2 ^ 64) (s' : State) :
    ∃ u', hostDecode bytes s' =
      .ok ({ im with pixels := im.pixels.map (effectivePixel (decide (im.channels = .four))) }, u') := by
  have hvalid := Image.valid_of_hostEncode h
  obtain ⟨t, body, hstart, hchan, hloop, rfl⟩ := hostEncode_ok h
  rw [List.append_assoc, ← header_length im, List.drop_left] at hlen
  obtain ⟨d, hstart', hunread, heq⟩ := hvalid.hostDecode_eq _ hlen s'
  have hlock := inLockstep_of_started hstart hstart'
  have hpos := hvalid.area_pos
  rw [← hvalid.pixels] at hpos
  obtain ⟨q, qs, hpixels⟩ := List.exists_cons_of_length_pos hpos
  rw [hunread, hpixels] at hlock
  rw [hpixels] at hloop
  obtain ⟨u', hdecoded⟩ := hlock.decodePixels hloop
  refine ⟨u', ?_⟩
  rw [List.append_assoc, heq, hpixels, List.length_cons, hdecoded, hchan]
  rfl

/-- Settles O56: only a full OUT keeps a valid Image from being encoded, and its stream decodes to it. -/
theorem decodeInvertsEncode : Obligations.DecodeInvertsEncode := by
  intro im s s' hw hh hpixels
  exact ⟨Image.Valid.hostEncode_ok_or_full ⟨hw, hh, hpixels⟩ s,
    fun bytes u h hlen => hostDecode_of_hostEncode h hlen s'⟩

end Sys2Proof.Machine
end

section
/-! PROOFS. Errors and modes (60_exceptions.md): a held error (R129, R130), the causes of ValidationError and CommandError (R125,
R127), and the mode machine (R135, R140). What a command can do is said once for each kind of command: a START, a decoding
instruction, ENC_PIXEL. -/
namespace Sys2Proof.Machine

/-! ### The guards of the decoding instructions (R104) -/

/-- R104: DEC_STEP, and a chunk taken by itself (log entry 7), stand behind the same guards. -/
theorem IsDecode.exec_eq_decodeGuard {i : Instr} (hi : IsDecode i) (s : State) : ∃ f, exec i s = decodeGuard f s := by
  rcases hi with rfl | ⟨c, rfl⟩
  · exact ⟨_, exec_decStep s⟩
  · exact ⟨_, exec_toInstr c s⟩

/-- R127: no decoding outside DEC. -/
theorem IsDecode.exec_wrongMode {i : Instr} {s : State} (hi : IsDecode i) (he : s.err = .none) (hm : s.mode ≠ .dec) :
    ∃ t, exec i s = .next t ∧ Failed s t .command := by
  obtain ⟨f, hf⟩ := hi.exec_eq_decodeGuard s
  exact ⟨_, hf.trans (decodeGuard_wrongMode f s he hm), failed_raise s .command⟩

/-! ### A held error (R129) -/

/-- R129: while an error is held, every command but a START is ignored. -/
theorem exec_held {i : Instr} {s : State} (hi : ¬ IsStart i) (herr : s.err ≠ .none) :
    ∃ t, exec i s = .next t ∧ Failed s t s.err := by
  rcases instr_kinds i with hdec | hstart | ⟨p, rfl⟩
  · obtain ⟨f, hf⟩ := hdec.exec_eq_decodeGuard s
    exact ⟨_, hf.trans (decodeGuard_held f s herr), failed_ignore s⟩
  · exact absurd hstart hi
  · exact ⟨_, execEncPixel_held p s herr, failed_ignore s⟩

/-- R128: the error after a command that fails. -/
theorem err_of_failed {r : Result} {s t : State} {e : Err} (h : ∃ u, r = .next u ∧ Failed s u e) (ht : r = .next t) :
    t.err = e := by
  obtain ⟨u, hu, f⟩ := h
  cases hu.symm.trans ht
  exact f.err

/-- R71: the command bytes of the two STARTs. -/
theorem cmd_start_of_decodeCommand {c : Command} {i : Instr} (h : decodeCommand c = .ok i) (hi : IsStart i) :
    c.cmd ∈ [0x01#8, 0x11#8, 0x03#8] := by
  have hlegal := cmd_legal_of_decodeCommand c i h
  simp only [List.mem_cons, List.not_mem_nil, or_false] at hlegal ⊢
  rcases hlegal with hcmd | hcmd | hcmd | hcmd | hcmd
  · exact .inl hcmd
  · exact .inr (.inl hcmd)
  · cases h.symm.trans (decodeCommand_encPixel c hcmd)
    exact absurd hi (not_isStart_encPixel _)
  · exact .inr (.inr hcmd)
  · cases h.symm.trans (decodeCommand_decStep c hcmd)
    exact absurd (.inl rfl) hi.not_isDecode

/-- R130: a step that changes a held error took a reset or a START. -/
theorem step_clears_held_err {s t : State} {x : PortInput} {rest : List PortInput} (herr : s.err ≠ .none)
    (hport : s.port = x :: rest) (ht : step s = .next t) (hne : t.err ≠ s.err) :
    x.reset = true ∨ ∃ c, x.command = some c ∧ c.cmd ∈ [0x01#8, 0x11#8, 0x03#8] := by
  rcases step_cases s with ⟨hnil, -⟩ | ⟨y, ys, hport', hstep⟩
  · cases hport.symm.trans hnil
  cases hport.symm.trans hport'
  rcases hstep with ⟨hreset, -⟩ | ⟨-, -, hs⟩ | ⟨c, i, -, hc, hi, hs⟩ | ⟨c, e, -, -, -, hs⟩
  · exact .inl hreset
  · cases hs.symm.trans ht
    exact absurd rfl hne
  · by_cases hstart : IsStart i
    · exact .inr ⟨c, hc, cmd_start_of_decodeCommand hi hstart⟩
    · have hfailed := exec_held (s := { s with port := rest }) hstart herr
      exact absurd (err_of_failed hfailed (hs.symm.trans ht)) hne
  · have hfailed := illegalCommand_failed { s with port := rest }
    exact absurd ((err_of_failed hfailed (hs.symm.trans ht)).trans (if_neg herr)) hne

/-- Settles O20: neither ENC_PIXEL nor a decoding instruction is a START, and no illegal byte is. -/
theorem heldErrorIsSticky : Obligations.HeldErrorIsSticky := by
  intro s herr
  refine ⟨fun p => exec_held (not_isStart_encPixel p) herr, exec_held (fun h => h.not_isDecode (.inl rfl)) herr,
    fun c => exec_held (fun h => h.not_isDecode (.inr ⟨c, rfl⟩)) herr, fun c rest hport hcmd => ?_,
    fun x rest t hport ht hne => step_clears_held_err herr hport ht hne⟩
  have h := illegalCommandByteRaisesCommandError s c rest hport hcmd
  rwa [if_neg herr] at h

/-! ### The causes of an error (R125, R127) -/

/-- R88: with no error held, what an ENC_PIXEL that answers a next state did is fixed by the mode it found. -/
theorem exec_encPixel_by_mode {q : Pixel} {s t : State} (he : s.err = .none) (ht : exec (.encPixel q) s = .next t) :
    (s.mode = .enc ∧ ∃ p bytes run, Encoded s t p bytes run) ∨
    (s.mode = .encDone ∧ Failed s t .validation) ∨
    (s.mode ≠ .enc ∧ s.mode ≠ .encDone ∧ Failed s t .command) := by
  rcases exec_encPixel_cases q s with
    ⟨hheld, -⟩ | ⟨-, hm, hs⟩ | ⟨-, hdone, hm, hs⟩ | ⟨-, -, hs⟩ | ⟨g, u, run, hs, d⟩
  · exact absurd he hheld
  · cases hs.symm.trans ht
    exact .inr (.inl ⟨hm, failed_raise s _⟩)
  · cases hs.symm.trans ht
    exact .inr (.inr ⟨hm, hdone, failed_raise s _⟩)
  · cases hs.symm.trans ht
  · cases hs.symm.trans ht
    exact .inl ⟨g.mode, _, _, run, d⟩

/-- Settles O21: with no error held, only ENC_DONE makes an ENC_PIXEL a ValidationError. -/
theorem validationErrorCauses : Obligations.ValidationErrorCauses := by
  refine ⟨fun c s => ⟨_, rfl, startCount_err .., startCount_mode .., startCount_count ..⟩,
    fun p s he hm => ⟨_, execEncPixel_done p s he hm, failed_raise s _⟩, fun p s t he ht hv => ?_⟩
  rcases exec_encPixel_by_mode he ht with ⟨-, _, _, _, d⟩ | ⟨hm, -⟩ | ⟨-, -, f⟩
  · cases d.err.symm.trans hv
  · exact hm
  · cases f.err.symm.trans hv

/-- Settles O22, with DEC_STEP and a chunk taken by itself behind one guard. -/
theorem commandErrorCauses : Obligations.CommandErrorCauses := by
  intro s he
  refine ⟨fun c rest hport hcmd => ?_, fun p hm => ?_, fun hm => IsDecode.exec_wrongMode (.inl rfl) he hm,
    fun c hm => IsDecode.exec_wrongMode (.inr ⟨c, rfl⟩) he hm⟩
  · have h := illegalCommandByteRaisesCommandError s c rest hport hcmd
    rwa [if_pos he] at h
  · have hmode : s.mode ≠ .encDone ∧ s.mode ≠ .enc := by
      rcases hm with hm | hm | hm <;> simp [hm]
    exact ⟨_, execEncPixel_wrongMode p s he hmode.1 hmode.2, failed_raise s _⟩

/-! ### The mode machine (R135, R140) -/

/-- Settles O12: a step with nothing on the ports, and one that takes an idle moment off them. -/
theorem noCommandHoldsState : Obligations.NoCommandHoldsState :=
  fun s rest => ⟨step_nil s, step_cons s ⟨false, none⟩ rest⟩

/-- R141. -/
theorem step_reset {s : State} {x : PortInput} {rest : List PortInput} (hport : s.port = x :: rest)
    (hreset : x.reset = true) : step s = .next { State.reset with port := rest } := by
  rw [step_cons s x rest hport]
  exact if_pos hreset

/-- R86, R103: a START with N = 0 leaves IDLE and the error `e`, and any other one the mode `m` and no error. -/
theorem startCount_clearPass_mode_err {s t : State} {chan4 : Bool} {input : Memory} {len n : Count} {m : Mode} {e : Err}
    (ht : t = State.startCount { s.clearPass with chan4 := chan4, input := input, len := len } n m e) :
    (n = 0 → t.mode = .idle ∧ t.err = e) ∧ (n ≠ 0 → t.mode = m ∧ t.err = .none) := by
  subst ht
  rw [startCount_mode, startCount_err]
  exact ⟨fun hn => ⟨if_pos hn, if_pos hn⟩, fun hn => ⟨if_neg hn, if_neg hn⟩⟩

/-- R103: what a DEC_START that answers a next state has done. -/
theorem exec_decStart_eq_startCount {n : Count} {bytes : List Byte} {s t : State}
    (ht : exec (.decStart n bytes) s = .next t) :
    t = State.startCount
      { s.clearPass with chan4 := false, input := Memory.ofBytes bytes, len := BitVec.ofNat 64 bytes.length }
      n .dec .format := by
  by_cases hlen : bytes.length < 2 ^ 64
  · cases (exec_decStart_next s n bytes hlen).symm.trans ht
    rfl
  · have hrefused : exec (.decStart n bytes) s = .refused .inputTooLong := if_pos (Nat.not_lt.1 hlen)
    cases hrefused.symm.trans ht

/-- The chunk that begins at POS, by its first byte, ends inside IN (R112). -/
def State.ChunkInside (s : State) : Prop :=
  ∃ b0, s.input.read s.pos.toNat = some b0 ∧ s.pos.toNat + chunkLength b0 ≤ s.len.toNat

/-- R112: a chunk DEC_STEP finds truncated is not inside IN. -/
theorem not_chunkInside {s : State} (h : s.len.toNat < s.pos.toNat + 1 ∨
    ∃ b0, s.input.read s.pos.toNat = some b0 ∧ s.len.toNat < s.pos.toNat + chunkLength b0) : ¬ s.ChunkInside := by
  rintro ⟨b0, hb0, hfits⟩
  rcases h with hfirst | ⟨b1, hb1, hshort⟩
  · have := chunkLength_pos b0
    omega
  · cases hb0.symm.trans hb1
    omega

/-- R104: with no error held, what a DEC_STEP that answers a next state did is fixed by the mode, DRUN and the chunk at POS. -/
theorem exec_decStep_by_mode {s t : State} (he : s.err = .none) (ht : exec .decStep s = .next t) :
    (s.mode ≠ .dec ∧ Failed s t .command) ∨
    (s.mode = .dec ∧ (s.drun ≠ 0 ∨ s.ChunkInside) ∧ ∃ n px owed, Decoded s t n px owed) ∨
    (s.mode = .dec ∧ ¬ (s.drun ≠ 0 ∨ s.ChunkInside) ∧ Failed s t .format) := by
  rcases exec_decStep_cases s t ht with
    ⟨hheld, -⟩ | ⟨-, hm, f⟩ | ⟨-, hm, hd, d⟩ | ⟨g, f, htrunc⟩ | ⟨g, b0, _, _, hb0, hfits, -, -, d⟩
  · exact absurd he hheld
  · exact .inl ⟨hm, f⟩
  · exact .inr (.inl ⟨hm, .inl hd, _, _, _, d⟩)
  · exact .inr (.inr ⟨g.mode, fun h => h.elim (fun hd => hd g.drun) (not_chunkInside htrunc), f⟩)
  · exact .inr (.inl ⟨g.mode, .inr ⟨b0, hb0, hfits⟩, _, _, _, d⟩)

/-- R135, the rows of ENC_PIXEL. -/
theorem exec_encPixel_mode_err {q : Pixel} {s t : State} (he : s.err = .none) (ht : exec (.encPixel q) s = .next t) :
    (s.mode = .enc → t.err = .none ∧ t.mode = if s.count = 1 then .encDone else .enc) ∧
    (s.mode = .encDone → t.mode = .encDone ∧ t.err = .validation) ∧
    (s.mode = .idle ∨ s.mode = .dec ∨ s.mode = .decDone → t.mode = s.mode ∧ t.err = .command) := by
  rcases exec_encPixel_by_mode he ht with ⟨hm, _, _, _, d⟩ | ⟨hm, f⟩ | ⟨hm, hdone, f⟩
  · exact ⟨fun _ => ⟨d.err, d.mode⟩, by simp [hm], by simp [hm]⟩
  · exact ⟨by simp [hm], fun _ => ⟨f.mode.trans hm, f.err⟩, by simp [hm]⟩
  · exact ⟨fun h => absurd h hm, fun h => absurd h hdone, fun _ => ⟨f.mode, f.err⟩⟩

/-- R135, the rows of DEC_STEP. -/
theorem exec_decStep_mode_err {s t : State} (he : s.err = .none) (ht : exec .decStep s = .next t) :
    (s.mode = .dec →
      (s.drun ≠ 0 ∨ s.ChunkInside → t.err = .none ∧ t.mode = if s.count = 1 then .decDone else .dec) ∧
      (¬ (s.drun ≠ 0 ∨ s.ChunkInside) → t.mode = .dec ∧ t.err = .format)) ∧
    (s.mode ≠ .dec → t.mode = s.mode ∧ t.err = .command) := by
  rcases exec_decStep_by_mode he ht with ⟨hm, f⟩ | ⟨hm, hinside, _, _, _, d⟩ | ⟨hm, hnot, f⟩
  · exact ⟨fun h => absurd h hm, fun _ => ⟨f.mode, f.err⟩⟩
  · exact ⟨fun _ => ⟨fun _ => ⟨d.err, d.mode⟩, fun h => absurd hinside h⟩, fun h => absurd hm h⟩
  · exact ⟨fun _ => ⟨fun h => absurd h hnot, fun _ => ⟨f.mode.trans hm, f.err⟩⟩, fun h => absurd hm h⟩

/-- Settles O25, the rows of each command in turn. -/
theorem modeTransitions : Obligations.ModeTransitions := by
  refine ⟨fun s t x rest hport hreset ht => ?_, fun i s t he ht => ⟨?_, ?_, ?_, ?_⟩⟩
  · cases (step_reset hport hreset).symm.trans ht
    rfl
  · rintro c n rfl
    cases ht
    exact startCount_clearPass_mode_err (input := []) (len := 0) rfl
  · rintro n bytes rfl
    exact startCount_clearPass_mode_err (exec_decStart_eq_startCount ht)
  · rintro p rfl
    exact exec_encPixel_mode_err he ht
  · rintro rfl
    exact exec_decStep_mode_err he ht

end Sys2Proof.Machine
end

section
/-! PROOFS. Reset and the STARTs leave nothing of the state before them (70_reset_and_hazards.md R141, R143). Both STARTs answer
with `startCount` after `clearPass`, so what holds of that pair is said once. -/
namespace Sys2Proof.Machine

/-- Settles O11. -/
theorem resetInputWins : Obligations.ResetInputWins :=
  fun _ _ _ hport => step_reset hport rfl

/-- R143: two states with the same inputs still to come are left the same by a START. -/
theorem startCount_clearPass_congr {s s' : State} (hport : s'.port = s.port) (chan4 : Bool) (input : Memory) (len n : Count)
    (m : Mode) (e : Err) :
    State.startCount { s'.clearPass with chan4 := chan4, input := input, len := len } n m e =
      State.startCount { s.clearPass with chan4 := chan4, input := input, len := len } n m e := by
  unfold State.startCount State.clearPass
  rw [hport]
  split <;> rfl

/-- R143: whether a DEC_START is refused depends on its own input only, and so does what it leaves. -/
theorem exec_decStart_congr {s s' : State} (hport : s'.port = s.port) (n : Count) (bytes : List Byte) :
    exec (.decStart n bytes) s' = exec (.decStart n bytes) s := by
  change execDecStart n bytes s' = execDecStart n bytes s
  rw [execDecStart, execDecStart, startCount_clearPass_congr hport]

/-- R86, R103: a START that answers a next state has cleared the pass and set its own fields. -/
theorem IsStart.eq_startCount {i : Instr} {s t : State} (hi : IsStart i) (ht : exec i s = .next t) :
    ∃ chan4 input len n m e,
      t = State.startCount { s.clearPass with chan4 := chan4, input := input, len := len } n m e := by
  rcases hi with ⟨c, n, rfl⟩ | ⟨n, bytes, rfl⟩
  · cases ht
    exact ⟨c, [], 0, n, .enc, .validation, rfl⟩
  · exact ⟨_, _, _, _, _, _, exec_decStart_eq_startCount ht⟩

/-- Settles O19. -/
theorem startForgetsThePast : Obligations.StartForgetsThePast := by
  refine ⟨fun c n s s' => ?_, fun n bytes s s' => exec_decStart_congr rfl n bytes, fun i s t hi ht => ?_⟩
  · exact congrArg Host.Outcome.next (startCount_clearPass_congr rfl c [] 0 n .enc .validation)
  · obtain ⟨_, _, _, _, _, _, rfl⟩ := IsStart.eq_startCount hi ht
    exact ⟨startCount_cache .., startCount_prev .., startCount_run .., startCount_drun .., startCount_pos ..,
      startCount_out .., startCount_outLen ..⟩

end Sys2Proof.Machine
end

section
/-! PROOFS. What the model's widths leave no room for stops by name: an input that LEN cannot count (log entry 5), and bytes that
OUTLEN cannot count (log entry 4). -/
namespace Sys2Proof.Machine

/-- Settles O18: the length test comes before anything DEC_START does, so neither the state nor N matters. -/
theorem decStartRefusesUnholdableInput : Obligations.DecStartRefusesUnholdableInput :=
  fun n bytes s hlen =>
    show execDecStart n bytes s = .refused .inputTooLong from if_pos hlen

/-- Settles O60: bytes that would take OUTLEN to 2^64 are exactly those OUT has no room for. -/
theorem fullOutputStopsEncPixel : Obligations.FullOutputStopsEncPixel :=
  fun q s g hfull => exec_encPixel_full q s g (Nat.not_lt.2 hfull)

end Sys2Proof.Machine
end
